-- ==== Sys2Proof/Word.lean ====
section
/-! DEFINITION. The word types of the machine (00_scope.md section 5, "Widths"). -/

namespace Sys2Proof

/-- A memory cell, a general register, an operand byte or an opcode byte: 8 bits (rules R3, R4). -/
abbrev Byte := BitVec 8

/-- The program counter and the stack pointer: 9 bits, so that both can hold 256 (rules R5, R18, R21). -/
abbrev Ptr := BitVec 9

end Sys2Proof
end

