-- ==== Sys2Proof/Config.lean ====
section
/-! DEFINITION. The parameters of 00_scope.md section 4 and the one value the spec leaves to the implementation. -/

namespace Sys2Proof

/-- `MEM_SIZE`: cells are numbered 0 to 255 (rules R3, R40). -/
abbrev Config.memSize : Nat := 256

/-- `NREGS`: registers are numbered 0 to 7 (rules R4, R11). -/
abbrev Config.nregs : Nat := 8

/-- What a cell that nothing has written reads as: "At reset every cell is 0" (rules R31, R54). -/
abbrev Config.resetCell : Byte := 0

/-- `PC_RESET` (rules R5, R31). -/
abbrev Config.pcReset : Ptr := 0

/-- `SP_RESET`: one past the last memory address (rules R5, R19, R31). -/
abbrev Config.spReset : Ptr := 256

/-- `EQUAL_RESET` (rules R23, R31; the spec's decision D2; log entry 2). -/
abbrev Config.equalReset : Bool := false

/-- The scratch register of CALL and RET, as the operand byte that names it (rule R14). -/
abbrev Config.scratch : Byte := 2

/-- How far `EXIT_FAULT` lies above 1. Free: "any non-zero value satisfies the source" (rule R34, D12, U8);
the spec's default of 1 is the value 0 here. Log entry 7. -/
opaque Config.exitFaultExcess : Nat

/-- `EXIT_FAULT`: the non-zero exit status of a FAULTED machine (rule R34). -/
def Config.exitFault : Nat := Config.exitFaultExcess + 1

end Sys2Proof
end

