-- ==== Sys2Proof/Syntax.lean ====
section
/-! DEFINITION. The 13 instructions (30_encoding.md rule R63). An operand is a whole byte (rules R61, R64, R65):
`a` is operand A, `b` is operand B. A register number is any byte; one above 7 faults when it is accessed (rule R13). -/

namespace Sys2Proof

/-- One constructor per row of the dispatch table (rules R63, R91). -/
inductive Instr where
  | hlt
  | ldi (a b : Byte)
  | prn (a : Byte)
  | add (a b : Byte)
  | mul (a b : Byte)
  | cmp (a b : Byte)
  | push (a : Byte)
  | pop (a : Byte)
  | call (a : Byte)
  | ret
  | jmp (a : Byte)
  | jeq (a : Byte)
  | jne (a : Byte)
  deriving DecidableEq, Repr

/-- The 13 handlers the dispatch table selects among (rule R91). -/
inductive Handler where
  | hlt | ldi | prn | add | mul | cmp | push | pop | call | ret | jmp | jeq | jne
  deriving DecidableEq, Repr

/-- The four instruction formats (rule R61): no operand, one register, two registers, register and immediate. -/
inductive Format where
  | n | r | rr | ri
  deriving DecidableEq, Repr

end Sys2Proof
end

