-- ==== Sys2Proof/WellFormed.lean ====
section
/-! DEFINITION. Well-formed instructions: every register operand names one of the eight registers
(30_encoding.md rules R64, R71). The decoder accepts the others too, since their fault comes only at the access
(rule R13); they are ill-formed, not undecodable (log entry 9). -/

namespace Sys2Proof

/-- The operand bytes of an instruction that are register numbers (rules R61, R65: LDI's `b` is an immediate). -/
def Instr.registerOperands : Instr → List Byte
  | .hlt => []
  | .ldi a _ => [a]
  | .prn a => [a]
  | .add a b => [a, b]
  | .mul a b => [a, b]
  | .cmp a b => [a, b]
  | .push a => [a]
  | .pop a => [a]
  | .call a => [a]
  | .ret => []
  | .jmp a => [a]
  | .jeq a => [a]
  | .jne a => [a]

/-- Every register operand is 0 to 7. -/
def Instr.wellFormed (i : Instr) : Bool :=
  i.registerOperands.all fun r => decide (r.toNat < Config.nregs)

end Sys2Proof
end

