-- ==== Sys2Proof/Decode.lean ====
section
/-! DEFINITION. The instruction decoder, total on any three bytes and refusing by name, and the encoder
(30_encoding.md; 40_cycle_and_dispatch.md rules R84, R91). -/

namespace Sys2Proof

/-- What decoding a fetch window gives: an instruction, or the refusal of an opcode byte that is no key (rule R84). -/
inductive Decoded where
  | instr (i : Instr)
  | unknownOpcode (op : Byte)
  deriving DecidableEq, Repr

/-- The dispatch table: the 13 keys, matched on all eight bits (rules R62, R63, R84). -/
def dispatchTable : List (Byte × Handler) :=
  [ (0b00000001, .hlt), (0b10000010, .ldi), (0b01000111, .prn), (0b10100000, .add), (0b10100010, .mul),
    (0b10100111, .cmp), (0b01000101, .push), (0b01000110, .pop), (0b01010000, .call), (0b00010001, .ret),
    (0b01010100, .jmp), (0b01010101, .jeq), (0b01010110, .jne) ]

/-- Lookup by the whole opcode byte (rule R84). -/
def lookupHandler (op : Byte) : Option Handler := dispatchTable.lookup op

/-- The format column of rule R63. -/
def handlerFormat : Handler → Format
  | .hlt => .n
  | .ldi => .ri
  | .prn => .r
  | .add => .rr
  | .mul => .rr
  | .cmp => .rr
  | .push => .r
  | .pop => .r
  | .call => .r
  | .ret => .n
  | .jmp => .r
  | .jeq => .r
  | .jne => .r

/-- The length of a format in bytes: the opcode byte and its operand bytes (rules R60, R61). -/
def formatLength : Format → Nat
  | .n => 1
  | .r => 2
  | .rr => 3
  | .ri => 3

/-- The instruction a handler runs on operand bytes `a` and `b`; a byte that is not an operand is dropped (rule R70). -/
def assemble (h : Handler) (a b : Byte) : Instr :=
  match h with
  | .hlt => .hlt
  | .ldi => .ldi a b
  | .prn => .prn a
  | .add => .add a b
  | .mul => .mul a b
  | .cmp => .cmp a b
  | .push => .push a
  | .pop => .pop a
  | .call => .call a
  | .ret => .ret
  | .jmp => .jmp a
  | .jeq => .jeq a
  | .jne => .jne a

/-- The decoder: the bytes at `pc`, `pc + 1` and `pc + 2` (rules R60, R61, R84). -/
def decodeWindow (op a b : Byte) : Decoded :=
  match lookupHandler op with
  | some h => .instr (assemble h a b)
  | none => .unknownOpcode op

/-- The handler of an instruction. -/
def handlerOf : Instr → Handler
  | .hlt => .hlt
  | .ldi _ _ => .ldi
  | .prn _ => .prn
  | .add _ _ => .add
  | .mul _ _ => .mul
  | .cmp _ _ => .cmp
  | .push _ => .push
  | .pop _ => .pop
  | .call _ => .call
  | .ret => .ret
  | .jmp _ => .jmp
  | .jeq _ => .jeq
  | .jne _ => .jne

/-- The opcode byte of a handler (the hexadecimal column of rule R63). -/
def opcodeByte : Handler → Byte
  | .hlt => 0x01
  | .ldi => 0x82
  | .prn => 0x47
  | .add => 0xA0
  | .mul => 0xA2
  | .cmp => 0xA7
  | .push => 0x45
  | .pop => 0x46
  | .call => 0x50
  | .ret => 0x11
  | .jmp => 0x54
  | .jeq => 0x55
  | .jne => 0x56

/-- The length of an instruction in bytes (rules R60, R66). -/
def instrLength (i : Instr) : Nat := formatLength (handlerFormat (handlerOf i))

/-- The operand bytes of an instruction in address order (rule R61). -/
def operandBytes : Instr → List Byte
  | .hlt => []
  | .ldi a b => [a, b]
  | .prn a => [a]
  | .add a b => [a, b]
  | .mul a b => [a, b]
  | .cmp a b => [a, b]
  | .push a => [a]
  | .pop a => [a]
  | .call a => [a]
  | .ret => []
  | .jmp a => [a]
  | .jeq a => [a]
  | .jne a => [a]

/-- The encoder: the bytes of an instruction in ascending address order (rules R43, R60, R61). -/
def encode (i : Instr) : List Byte := opcodeByte (handlerOf i) :: operandBytes i

/-- Decode the first three bytes of a list, the fetch window; a byte the list does not have counts as 0. -/
def decodeBytes (l : List Byte) : Decoded := decodeWindow (l.getD 0 0) (l.getD 1 0) (l.getD 2 0)

/-- Byte `k` of an instruction word numbered as spec/opcode_table.json numbers it: bit 0 is the least significant
bit of the first byte. Bits at and above `nbits` are 0. -/
def tableWordByte (nbits w k : Nat) : Byte := BitVec.ofNat 8 ((w % 2 ^ nbits) / 2 ^ (8 * k))

/-- The instruction the decoder reads from an opcode-table word; `none` where it refuses. -/
def decodeTableWord (nbits w : Nat) : Option Instr :=
  match decodeWindow (tableWordByte nbits w 0) (tableWordByte nbits w 1) (tableWordByte nbits w 2) with
  | .instr i => some i
  | .unknownOpcode _ => none

/-- The mnemonic column of rule R63. -/
def handlerMnemonic : Handler → String
  | .hlt => "HLT"
  | .ldi => "LDI"
  | .prn => "PRN"
  | .add => "ADD"
  | .mul => "MUL"
  | .cmp => "CMP"
  | .push => "PUSH"
  | .pop => "POP"
  | .call => "CALL"
  | .ret => "RET"
  | .jmp => "JMP"
  | .jeq => "JEQ"
  | .jne => "JNE"

/-- The assembly text of the instruction of handler `h` on operand bytes `a` and `b` (rule R71): the mnemonic, a
space, the operands separated by a comma and a space. A byte above 7 has no spelling as a register. -/
def assemblyText (i : Instr) : Option String :=
  let head := handlerMnemonic (handlerOf i)
  if i.wellFormed then
    match handlerFormat (handlerOf i), operandBytes i with
    | .r, [a] => some (head ++ " R" ++ Nat.repr a.toNat)
    | .rr, [a, b] => some (head ++ " R" ++ Nat.repr a.toNat ++ ", R" ++ Nat.repr b.toNat)
    | .ri, [a, b] => some (head ++ " R" ++ Nat.repr a.toNat ++ ", " ++ Nat.repr b.toNat)
    | _, _ => some head
  else none

end Sys2Proof
end

