-- ==== Sys2Proof/Machine/State.lean ====
section
/-! DEFINITION. The complete state of the machine as plain data (10_state.md rule R10), its reset value (rule R31),
and the two types of reasons for which a step does not answer a next state. -/

namespace Sys2Proof.Machine

/-- The 256 cells as the list of those that differ from what an unlisted cell reads as (rules R40, R54). -/
abbrev Memory := List Host.Cell

/-- The canonical form of memory: addresses strictly rising, each inside the 256 cells, no entry equal to what an
unlisted address reads as. Equal memories are then equal lists. -/
abbrev Memory.wf (m : Memory) : Prop :=
  m.Pairwise (fun c d => c.1 < d.1) ∧ ∀ c ∈ m, c.1 < Config.memSize ∧ c.2 ≠ Config.resetCell

/-- `run_state` (rule R25). -/
inductive RunState where
  | running | halted | faulted
  deriving DecidableEq, Repr

/-- `fault_cause` by name; `none` is code 0 (rules R26, R155). -/
inductive FaultCause where
  | none | unknownOpcode | outOfRangeAddress | unsupportedAluOperation
  deriving DecidableEq, Repr

/-- The kind of an access outside its bounds (rules R26, R153). -/
inductive AccessKind where
  | mem | reg
  deriving DecidableEq, Repr

/-- The fatal conditions with what each carries (rules R150 to R153): the opcode byte, or the kind of the access and
the address or register number that is out of range. -/
inductive Condition where
  | unknownOpcode (op : Byte)
  | outOfRangeAddress (kind : AccessKind) (index : Ptr)
  | unsupportedAluOperation
  deriving DecidableEq, Repr

/-- The fault record (rule R26). -/
structure FaultRecord where
  /-- `fault_cause`. -/
  cause : FaultCause
  /-- `fault_pc`: the `pc` at the start of the faulting cycle. -/
  pc : Ptr
  /-- `fault_opcode_valid`: the fetch of the opcode byte itself succeeded. -/
  opcodeValid : Bool
  /-- `fault_opcode`: the fetched opcode byte, when valid. -/
  opcode : Byte
  /-- The kind in `fault_info`; only OutOfRangeAddress has one. -/
  infoKind : Option AccessKind
  /-- The value in `fault_info`: the address or register number, or the opcode. -/
  infoValue : Ptr
  deriving DecidableEq, Repr

/-- The clear record: `fault_cause = 0`, `fault_opcode_valid = 0`, other fields 0 (rule R31; log entry 5). -/
def FaultRecord.clear : FaultRecord :=
  { cause := .none, pc := 0, opcodeValid := false, opcode := 0, infoKind := none, infoValue := 0 }

/-- Every piece of state of rule R10's table. -/
structure State where
  /-- `mem[0..255]` (rule R40). -/
  mem : Memory
  /-- `x[0..7]` (rule R11). -/
  regs : Vector Byte Config.nregs
  /-- `pc` (rules R16 to R18). -/
  pc : Ptr
  /-- `sp` (rules R19 to R21). -/
  sp : Ptr
  /-- `equal` (rule R22). -/
  equal : Bool
  /-- `run_state` (rule R25). -/
  runState : RunState
  /-- The fault record (rule R26). -/
  fault : FaultRecord
  /-- `out`: the values emitted so far, oldest first (rule R28). -/
  out : List Byte
  deriving DecidableEq, Repr

/-- Why `step` answers no next state. No instruction raises either: a fatal condition of the spec is a NEXT state
whose `runState` is `faulted` (rule R157; log entry 1). -/
inductive Fault where
  /-- Raised by `step` alone, when `run_state` is HALTED: no cycle runs, the state has no successor (rules R90, R187). Safe. -/
  | machineHalted
  /-- Raised by `step` alone, when `run_state` is FAULTED: no cycle runs, the state has no successor (rules R90, R187). Safe. -/
  | machineFaulted
  deriving DecidableEq, Repr

/-- Instructions without a meaning. Every instruction of this model has one. -/
inductive Refusal where
  /-- For an arm of `exec` that has no meaning yet; no arm uses it. Safe. -/
  | notModelled (mnemonic : String)
  deriving DecidableEq, Repr

/-- The state after reset (rules R31, R181): every value is the spec's. -/
def State.reset : State :=
  { mem := []
    regs := Vector.replicate Config.nregs 0
    pc := Config.pcReset
    sp := Config.spReset
    equal := Config.equalReset
    runState := .running
    fault := FaultRecord.clear
    out := [] }

end Sys2Proof.Machine
end

