-- ==== Sys2Proof/Machine/Ops.lean ====
section
/-! DEFINITION. The named operations over the state: field updates, memory, the sub-step result, taking a fatal
condition, the end of a cycle, the fetch, the host's load writes and the exit status. There is no return from a fatal
condition (60_exceptions.md rule R160), so no operation for one stands here. -/

namespace Sys2Proof.Machine

/-! ### Field updates -/

/-- Replace the memory. -/
def setMem (m : Memory) (s : State) : State := { s with mem := m }

/-- `pc <- target`. -/
def setPc (p : Ptr) (s : State) : State := { s with pc := p }

/-- `sp <- v`. -/
def setSp (p : Ptr) (s : State) : State := { s with sp := p }

/-- `equal <- b`. -/
def setEqual (b : Bool) (s : State) : State := { s with equal := b }

/-- `run_state <- r`. -/
def setRunState (r : RunState) (s : State) : State := { s with runState := r }

/-- Write the fault record. -/
def setFault (f : FaultRecord) (s : State) : State := { s with fault := f }

/-- `Emit(v)`: `out <- out ++ [v]` (rule R28). -/
def emit (v : Byte) (s : State) : State := { s with out := s.out ++ [v] }

/-- The content of register `i`; the value at an `i` above 7 is never used by the machine. -/
def regVal (s : State) (i : Byte) : Byte := s.regs[i.toNat]?.getD 0

/-- Replace the content of register `i`, if there is such a register. -/
def setReg (i v : Byte) (s : State) : State := { s with regs := s.regs.setIfInBounds i.toNat v }

/-! ### Memory as data -/

/-- The content of cell `a`. -/
def memByte : Memory → Nat → Byte
  | [], _ => Config.resetCell
  | (b, w) :: m, a => if a = b then w else memByte m a

/-- Put `v` into cell `a`, keeping the canonical form: the entry is removed when `v` is what an unlisted cell reads as. -/
def memPut : Memory → Nat → Byte → Memory
  | [], a, v => if v = Config.resetCell then [] else [(a, v)]
  | (b, w) :: m, a, v =>
    if a < b then (if v = Config.resetCell then (b, w) :: m else (a, v) :: (b, w) :: m)
    else if a = b then (if v = Config.resetCell then m else (a, v) :: m)
    else (b, w) :: memPut m a v

/-! ### Sub-steps that can raise -/

/-- What a sub-step of a cycle gives: a value and the state so far, or a `raise` with every write already made
(00_scope.md section 6; rules R88, R158). -/
inductive SubStep (α : Type) where
  | ok (v : α) (s : State)
  | raise (c : Condition) (s : State)

/-- Run the next sub-step, unless this one raised. -/
def andThen {α β : Type} (x : SubStep α) (f : α → State → SubStep β) : SubStep β :=
  match x with
  | .ok v s => f v s
  | .raise c s => .raise c s

/-- The condition of an access to the memory address `a` that does not exist (rules R41, R153). -/
def memOutOfRange (a : Nat) : Condition := .outOfRangeAddress .mem (BitVec.ofNat 9 a)

/-- The condition of an access to the register number `i` that does not exist (rules R13, R153). -/
def regOutOfRange (i : Byte) : Condition := .outOfRangeAddress .reg (i.setWidth 9)

/-- `MemRead(addr, 1)` (rule R41). -/
def memRead (a : Nat) (s : State) : SubStep Byte :=
  if a < Config.memSize then .ok (memByte s.mem a) s else .raise (memOutOfRange a) s

/-- `MemWrite(addr, 1, v)` (rule R41). -/
def memWrite (a : Nat) (v : Byte) (s : State) : SubStep Unit :=
  if a < Config.memSize then .ok () (setMem (memPut s.mem a v) s) else .raise (memOutOfRange a) s

/-! ### Taking a fatal condition -/

/-- The names of the causes (rules R26, R155). -/
def conditionCause : Condition → FaultCause
  | .unknownOpcode _ => .unknownOpcode
  | .outOfRangeAddress _ _ => .outOfRangeAddress
  | .unsupportedAluOperation => .unsupportedAluOperation

/-- The kind in `fault_info` (rule R26). -/
def conditionKind : Condition → Option AccessKind
  | .unknownOpcode _ => none
  | .outOfRangeAddress k _ => some k
  | .unsupportedAluOperation => none

/-- The value in `fault_info` (rule R26; log entry 5). -/
def conditionValue : Condition → Ptr
  | .unknownOpcode op => op.setWidth 9
  | .outOfRangeAddress _ i => i
  | .unsupportedAluOperation => 0

/-- The `fault_cause` code (rule R155). -/
def causeCode : FaultCause → BitVec 2
  | .none => 0
  | .unknownOpcode => 1
  | .outOfRangeAddress => 2
  | .unsupportedAluOperation => 3

/-- The record of condition `c` in the cycle that started at `cyclePc` and fetched the opcode byte `op`, if any
(rules R26, R157). -/
def faultRecordOf (cyclePc : Ptr) (op : Option Byte) (c : Condition) : FaultRecord :=
  { cause := conditionCause c
    pc := cyclePc
    opcodeValid := op.isSome
    opcode := op.getD 0
    infoKind := conditionKind c
    infoValue := conditionValue c }

/-- Taking a fatal condition, in full: `run_state <- FAULTED` and the fault record. Nothing is saved elsewhere and
control goes nowhere; writes already made stay (rules R88, R157, R158). -/
def takeFatal (cyclePc : Ptr) (op : Option Byte) (c : Condition) (s : State) : State :=
  setFault (faultRecordOf cyclePc op c) (setRunState .faulted s)

/-! ### Handlers and the end of a cycle -/

/-- What a handler returns: `(advance, runs)` (rule R85). -/
structure HandlerResult where
  advance : Nat
  runs : Bool
  deriving DecidableEq, Repr

/-- The result of a handler that lets the run loop add `n` to `pc`; 0 when the handler set `pc` itself (rule R85). -/
def advanceBy (n : Nat) : HandlerResult := { advance := n, runs := true }

/-- The result of HLT, `runs = false`; its `advance` is not used (rules R87, R100). -/
def stopRunning : HandlerResult := { advance := 0, runs := false }

/-- The end of the cycle that started at `cyclePc` with opcode byte `op`: the run loop's update of `pc` (rule R86),
the halt (rule R87), or the fatal condition a sub-step raised (rule R88). -/
def endCycle (cyclePc : Ptr) (op : Byte) (r : SubStep HandlerResult) : State :=
  match r with
  | .ok h s => if h.runs then setPc (s.pc + BitVec.ofNat 9 h.advance) s else setRunState .halted s
  | .raise c s => takeFatal cyclePc (some op) c s

/-- Run the handler `f` of the dispatch-table entry `h` and end its cycle (rules R81, R91). The cycle always ends in
a next state; the precondition `run_state = RUNNING` is `step`'s (log entry 4). -/
def runHandler (h : Handler) (f : State → SubStep HandlerResult) (s : State) : Host.Outcome State Fault Refusal :=
  .next (endCycle s.pc (opcodeByte h) (f s))

/-! ### Fetch and decode -/

/-- What the first part of a cycle gives: an instruction to run, or a fatal condition with the opcode byte if its
own fetch succeeded. -/
inductive Fetched where
  | instr (i : Instr)
  | raise (op : Option Byte) (c : Condition)
  deriving DecidableEq, Repr

/-- The lookup's result as the cycle takes it: an unknown opcode byte, which was fetched, is fatal (rules R84, R151). -/
def fetchedOf : Decoded → Fetched
  | .instr i => .instr i
  | .unknownOpcode op => .raise (some op) (.unknownOpcode op)

/-- The three reads of the fetch, in address order and before the opcode is looked at, then the lookup
(rules R81 to R84). -/
def fetchDecode (s : State) : Fetched :=
  match memRead s.pc.toNat s with
  | .raise c _ => .raise none c
  | .ok op _ =>
    match memRead (s.pc.toNat + 1) s with
    | .raise c _ => .raise (some op) c
    | .ok a _ =>
      match memRead (s.pc.toNat + 2) s with
      | .raise c _ => .raise (some op) c
      | .ok b _ => fetchedOf (decodeWindow op a b)

/-- Whether no cycle runs, and why: HALTED and FAULTED have no successor (rules R90, R187). -/
def stopped (s : State) : Option Fault :=
  match s.runState with
  | .running => none
  | .halted => some .machineHalted
  | .faulted => some .machineFaulted

/-! ### The host's side -/

/-- One load write `(addr, byte)` (rule R32). The host makes it between reset and start only (log entry 8). -/
def loadByte (w : Byte × Byte) (s : State) : State := setMem (memPut s.mem w.1.toNat w.2) s

/-- The load writes in order, so a later write to the same address wins (rule R32). -/
def load (ws : List (Byte × Byte)) (s : State) : State := ws.foldl (fun t w => loadByte w t) s

/-- The state the first cycle sees: reset, then the loader's writes (rules R182, R54). -/
def boot (ws : List (Byte × Byte)) : State := load ws State.reset

/-- The bytes `bs` as load writes to consecutive addresses from `a` (rule R46: the reference loader's are from 0);
an address above 255 is no transaction of the load interface (rule R32) and is left out. -/
def imageAt (a : Nat) : List Byte → List (Byte × Byte)
  | [] => []
  | b :: bs => if a < Config.memSize then (BitVec.ofNat 8 a, b) :: imageAt (a + 1) bs else []

/-- The exit status the host sees: none while RUNNING, 0 in HALTED, `EXIT_FAULT` in FAULTED (rule R34). -/
def exitStatus (s : State) : Option Nat :=
  match s.runState with
  | .running => none
  | .halted => some 0
  | .faulted => some Config.exitFault

end Sys2Proof.Machine
end

