-- ==== Sys2Proof/Machine/Flags.lean ====
section
/-! DEFINITION. The one flag, `equal` (10_state.md rules R22 to R24): how CMP computes it and how the conditional
jumps read it. -/

namespace Sys2Proof.Machine

/-- The ALU's `eq` output: 1 if the two 8-bit values are the same, else 0 (rules R110, R113). -/
def equalFlag (p q : Byte) : Bool := p == q

/-- JEQ is taken when `equal = 1` (rule R134). -/
def jeqTaken (s : State) : Bool := s.equal

/-- JNE is taken when `equal = 0` (rule R135). -/
def jneTaken (s : State) : Bool := !s.equal

end Sys2Proof.Machine
end

