-- ==== Sys2Proof/Machine/Operands.lean ====
section
/-! DEFINITION. The operand forms (30_encoding.md rules R64, R65): a register number is a whole byte, checked at the
moment of the access and never masked (10_state.md rule R13); an immediate is the byte itself. -/

namespace Sys2Proof.Machine

/-- Read general register `i` (rule R13). -/
def readReg (i : Byte) (s : State) : SubStep Byte :=
  if i.toNat < Config.nregs then .ok (regVal s i) s else .raise (regOutOfRange i) s

/-- Write general register `i` with `v` (rule R13). -/
def writeReg (i v : Byte) (s : State) : SubStep Unit :=
  if i.toNat < Config.nregs then .ok () (setReg i v s) else .raise (regOutOfRange i) s

/-- The immediate operand: operand B unchanged (rule R65). -/
def immediate (b : Byte) : Byte := b

/-- `pc <- x[i]`: a control transfer takes an absolute target 0 to 255 from a register (rule R130). -/
def jumpToReg (i : Byte) (s : State) : SubStep HandlerResult :=
  andThen (readReg i s) fun target s => .ok (advanceBy 0) (setPc (target.setWidth 9) s)

end Sys2Proof.Machine
end

