-- ==== Sys2Proof/Machine/Alu.lean ====
section
/-! DEFINITION. The ALU and ADD, MUL, CMP (42_alu_add_mul_cmp.md). -/

namespace Sys2Proof.Machine

/-- The operation select: exactly three values, so UnsupportedAluOperation cannot arise (rules R110, R114, R152). -/
inductive AluOp where
  | add | mul | cmp
  deriving DecidableEq, Repr

/-- The ALU's output: the 8-bit `result` of ADD and MUL, or the 1-bit `eq` of CMP (rule R110). -/
inductive AluOut where
  | result (v : Byte)
  | eq (b : Bool)
  deriving DecidableEq, Repr

/-- The combinational function `alu(op, p, q)`: exact arithmetic, then the low 8 bits (rules R110, R115). -/
def alu (op : AluOp) (p q : Byte) : AluOut :=
  match op with
  | .add => .result (BitVec.ofNat 8 ((p.toNat + q.toNat) % 256))
  | .mul => .result (BitVec.ofNat 8 ((p.toNat * q.toNat) % 256))
  | .cmp => .eq (equalFlag p q)

/-- The write-back of the ALU's output: `result` to `x[a]`, `eq` to `equal` (rule R110). -/
def aluWriteBack (a : Byte) (o : AluOut) (s : State) : SubStep Unit :=
  match o with
  | .result v => writeReg a v s
  | .eq b => .ok () (setEqual b s)

/-- The handler of an ALU instruction: `x[a]` is read before `x[b]`, both before the write-back (rules R110 to R113). -/
def aluHandler (op : AluOp) (a b : Byte) (s : State) : SubStep HandlerResult :=
  andThen (readReg a s) fun p s =>
  andThen (readReg b s) fun q s =>
  andThen (aluWriteBack a (alu op p q) s) fun _ s => .ok (advanceBy 3) s

/-- ADD (rule R111). -/
def execAdd (a b : Byte) (s : State) : Host.Outcome State Fault Refusal := runHandler .add (aluHandler .add a b) s

/-- MUL (rule R112). -/
def execMul (a b : Byte) (s : State) : Host.Outcome State Fault Refusal := runHandler .mul (aluHandler .mul a b) s

/-- CMP (rule R113). -/
def execCmp (a b : Byte) (s : State) : Host.Outcome State Fault Refusal := runHandler .cmp (aluHandler .cmp a b) s

end Sys2Proof.Machine
end

