-- ==== Sys2Proof/Machine/Stack.lean ====
section
/-! DEFINITION. The stack discipline and PUSH, POP (43_stack_push_pop.md). -/

namespace Sys2Proof.Machine

/-- The effective address of a push: the 9-bit `sp - 1`; from 0 this gives 511 (rules R120, R121). -/
def pushAddr (s : State) : Ptr := s.sp - 1

/-- `PushReg(r)`: decrement `sp`, read `x[r]`, write the cell at the new `sp` (rule R121). -/
def pushReg (r : Byte) (s : State) : SubStep Unit :=
  let s := setSp (pushAddr s) s
  andThen (readReg r s) fun v s => memWrite s.sp.toNat v s

/-- `PopReg(r)`: read the cell at `sp`, write `x[r]`, increment `sp` (rule R122). -/
def popReg (r : Byte) (s : State) : SubStep Unit :=
  andThen (memRead s.sp.toNat s) fun v s =>
  andThen (writeReg r v s) fun _ s => .ok () (setSp (s.sp + 1) s)

/-- The PUSH handler (rule R121). -/
def pushHandler (a : Byte) (s : State) : SubStep HandlerResult :=
  andThen (pushReg a s) fun _ s => .ok (advanceBy 2) s

/-- The POP handler (rule R122). -/
def popHandler (a : Byte) (s : State) : SubStep HandlerResult :=
  andThen (popReg a s) fun _ s => .ok (advanceBy 2) s

/-- PUSH (rule R121). -/
def execPush (a : Byte) (s : State) : Host.Outcome State Fault Refusal := runHandler .push (pushHandler a) s

/-- POP (rule R122). -/
def execPop (a : Byte) (s : State) : Host.Outcome State Fault Refusal := runHandler .pop (popHandler a) s

end Sys2Proof.Machine
end

