-- ==== Sys2Proof/Machine/Control.lean ====
section
/-! DEFINITION. CALL, RET, JMP, JEQ, JNE (44_control_flow.md). -/

namespace Sys2Proof.Machine

/-- The return address of a CALL, `pc + 2`; a CALL that was fetched has `pc <= 253`, so it fits (rule R131; log entry 6). -/
def returnAddress (s : State) : Byte := (s.pc + 2).setWidth 8

/-- The CALL handler: the scratch register, the push, the jump, in this order (rules R14, R131). -/
def callHandler (a : Byte) (s : State) : SubStep HandlerResult :=
  andThen (writeReg Config.scratch (returnAddress s) s) fun _ s =>
  andThen (pushReg Config.scratch s) fun _ s => jumpToReg a s

/-- The RET handler: pop into the scratch register, then jump to it (rules R14, R132). -/
def retHandler (s : State) : SubStep HandlerResult :=
  andThen (popReg Config.scratch s) fun _ s => jumpToReg Config.scratch s

/-- The JMP handler (rule R133). -/
def jmpHandler (a : Byte) (s : State) : SubStep HandlerResult := jumpToReg a s

/-- A conditional jump: the register is read only when the jump is taken; not taken, `pc` advances by 2
(rules R134, R135, R137). -/
def condJump (taken : Bool) (a : Byte) (s : State) : SubStep HandlerResult :=
  if taken then jumpToReg a s else .ok (advanceBy 2) s

/-- CALL (rule R131). -/
def execCall (a : Byte) (s : State) : Host.Outcome State Fault Refusal := runHandler .call (callHandler a) s

/-- RET (rule R132). -/
def execRet (s : State) : Host.Outcome State Fault Refusal := runHandler .ret retHandler s

/-- JMP (rule R133). -/
def execJmp (a : Byte) (s : State) : Host.Outcome State Fault Refusal := runHandler .jmp (jmpHandler a) s

/-- JEQ (rule R134). -/
def execJeq (a : Byte) (s : State) : Host.Outcome State Fault Refusal :=
  runHandler .jeq (fun s => condJump (jeqTaken s) a s) s

/-- JNE (rule R135). -/
def execJne (a : Byte) (s : State) : Host.Outcome State Fault Refusal :=
  runHandler .jne (fun s => condJump (jneTaken s) a s) s

end Sys2Proof.Machine
end

