-- ==== Sys2Proof/Machine/System.lean ====
section
/-! DEFINITION. HLT, LDI and PRN (41_system_hlt_ldi_prn.md). -/

namespace Sys2Proof.Machine

/-- The HLT handler (rule R100). -/
def hltHandler (s : State) : SubStep HandlerResult := .ok stopRunning s

/-- The LDI handler (rule R101). -/
def ldiHandler (a b : Byte) (s : State) : SubStep HandlerResult :=
  andThen (writeReg a (immediate b) s) fun _ s => .ok (advanceBy 3) s

/-- The PRN handler (rule R102). -/
def prnHandler (a : Byte) (s : State) : SubStep HandlerResult :=
  andThen (readReg a s) fun v s => .ok (advanceBy 2) (emit v s)

/-- HLT (rule R100). -/
def execHlt (s : State) : Host.Outcome State Fault Refusal := runHandler .hlt hltHandler s

/-- LDI (rule R101). -/
def execLdi (a b : Byte) (s : State) : Host.Outcome State Fault Refusal := runHandler .ldi (ldiHandler a b) s

/-- PRN (rule R102). -/
def execPrn (a : Byte) (s : State) : Host.Outcome State Fault Refusal := runHandler .prn (prnHandler a) s

end Sys2Proof.Machine
end

