-- ==== Sys2Proof/Machine/Step.lean ====
section
/-! DEFINITION. One step of the machine is one cycle (40_cycle_and_dispatch.md rule R81). -/

namespace Sys2Proof.Machine

/-- One cycle, run only while `run_state = RUNNING`: fetch and decode, then the one selected handler, or the fatal
condition the fetch or the lookup raised. A HALTED or FAULTED machine has no successor (rules R81, R90, R187). -/
def step (s : State) : Host.Outcome State Fault Refusal :=
  match stopped s with
  | some f => .fault f
  | none =>
    match fetchDecode s with
    | .instr i => exec i s
    | .raise op c => .next (takeFatal s.pc op c s)

/-- `s` with the instruction of an opcode-table word loaded where `step` fetches next: the three bytes of the fetch
window as load writes at `pc`, `pc + 1`, `pc + 2` (rules R32, R82; log entry 8). -/
def State.withFetchWord (s : State) (nbits w : Nat) : State :=
  load (imageAt s.pc.toNat [tableWordByte nbits w 0, tableWordByte nbits w 1, tableWordByte nbits w 2]) s

end Sys2Proof.Machine
end

