-- ==== Sys2Proof/Safety.lean ====
section
/-! DEFINITION. The terms claims use: when an instruction executes, the invariant of the machine, the frames, and the
tables of 10_state.md rule R15, 40_cycle_and_dispatch.md rule R91 and 60_exceptions.md rule R165 written out
independently of the meanings. -/

namespace Sys2Proof.Machine

/-- A cycle reaches its handler: `run_state = RUNNING` and the three-byte fetch stays inside memory
(rules R81, R83: the highest address at which an instruction can execute is 253). -/
abbrev CanExecute (s : State) : Prop := s.runState = .running ∧ s.pc.toNat ≤ 253

/-- The operand byte names a register (rule R13). -/
abbrev NamesReg (a : Byte) : Prop := a.toNat ≤ 7

/-- Every register outside `ds` keeps its value. -/
abbrev SameRegsExcept (ds : List Byte) (s t : State) : Prop := ∀ r : Byte, r ∉ ds → regVal t r = regVal s r

/-- Every byte of memory outside the addresses `ns` keeps its value. -/
abbrev SameMemExcept (ns : List Nat) (s t : State) : Prop := ∀ n : Nat, n ∉ ns → memByte t.mem n = memByte s.mem n

/-- Neither the run state nor the fault record nor the output changes. -/
abbrev SameStatus (s t : State) : Prop := t.runState = s.runState ∧ t.fault = s.fault ∧ t.out = s.out

/-- `t` is the FAULTED state of an access of kind `k` at index `v` in the cycle of `s` that fetched the opcode byte
`op`; the record is filled, and `pc`, `equal` and `out` are as they were (rules R26, R157). -/
abbrev FaultedAccess (op : Byte) (k : AccessKind) (v : Nat) (s t : State) : Prop :=
  t.runState = .faulted ∧ t.fault.cause = .outOfRangeAddress ∧ t.fault.pc = s.pc ∧ t.fault.opcodeValid = true ∧
    t.fault.opcode = op ∧ t.fault.infoKind = some k ∧ t.fault.infoValue.toNat = v ∧
    t.pc = s.pc ∧ t.equal = s.equal ∧ t.out = s.out

/-- The invariant of the machine. -/
structure Inv (s : State) : Prop where
  /-- Memory keeps its canonical form (log entry 3). -/
  memWf : Memory.wf s.mem
  /-- `pc` takes the values 0 to 256 (rule R18). -/
  pcRange : s.pc.toNat ≤ 256
  /-- `sp` holds 0 to 256 in every state that is not FAULTED (rule R21). -/
  spRange : s.runState ≠ .faulted → s.sp.toNat ≤ 256
  /-- In FAULTED it may also be 511 (rules R121, R165). -/
  spFaulted : s.sp.toNat ≤ 256 ∨ s.sp.toNat = 511
  /-- The fault record is clear until `run_state` becomes FAULTED (rule R26). -/
  recordClear : s.runState ≠ .faulted → s.fault = FaultRecord.clear
  /-- A FAULTED machine has a cause, never UnsupportedAluOperation (rules R94, R152), and stands at the faulting
  instruction (rule R17). -/
  recordSet : s.runState = .faulted →
    (s.fault.cause = .unknownOpcode ∨ s.fault.cause = .outOfRangeAddress) ∧ s.fault.pc = s.pc
  /-- A HALTED machine stands at the HLT that stopped it (rule R87). -/
  haltedAtHlt : s.runState = .halted → s.pc.toNat ≤ 253 ∧ memByte s.mem s.pc.toNat = 0x01

/-- The registers an instruction may write (the last column of rule R15). -/
def mayWriteRegs : Instr → List Byte
  | .hlt => []
  | .ldi a _ => [a]
  | .prn _ => []
  | .add a _ => [a]
  | .mul a _ => [a]
  | .cmp _ _ => []
  | .push _ => []
  | .pop a => [a]
  | .call _ => [2]
  | .ret => [2]
  | .jmp _ => []
  | .jeq _ => []
  | .jne _ => []

/-- The instructions that push, and so may write the one cell at the new `sp` (rules R42, R91). -/
def pushes : Instr → Bool
  | .push _ => true
  | .call _ => true
  | _ => false

/-- The instructions that pop (rules R20, R42). -/
def pops : Instr → Bool
  | .pop _ => true
  | .ret => true
  | _ => false

/-- Whether the handler writes `pc` itself in state `s` (rule R91, column "writes `pc` itself"). -/
def setsPc : Instr → State → Bool
  | .call _, _ => true
  | .ret, _ => true
  | .jmp _, _ => true
  | .jeq _, s => s.equal
  | .jne _, s => !s.equal
  | _, _ => false

/-- The register fault of operand byte `a` (rule R165: reg, `a`). -/
def regFault (a : Byte) : Option Condition :=
  if 7 < a.toNat then some (.outOfRangeAddress .reg (a.setWidth 9)) else none

/-- The handler rows of the complete list of fault sites, in the order the sub-steps run (rule R165, rows 5 to 18),
for a state whose `sp` is 0 to 256. -/
def faultSite : Instr → State → Option Condition
  | .hlt, _ => none
  | .ldi a _, _ => regFault a
  | .prn a, _ => regFault a
  | .add a b, _ => (regFault a).or (regFault b)
  | .mul a b, _ => (regFault a).or (regFault b)
  | .cmp a b, _ => (regFault a).or (regFault b)
  | .push a, s => (regFault a).or (if s.sp = 0 then some (.outOfRangeAddress .mem 511) else none)
  | .pop a, s => if s.sp = 256 then some (.outOfRangeAddress .mem 256) else regFault a
  | .call a, s => if s.sp = 0 then some (.outOfRangeAddress .mem 511) else regFault a
  | .ret, s => if s.sp = 256 then some (.outOfRangeAddress .mem 256) else none
  | .jmp a, _ => regFault a
  | .jeq a, s => if s.equal then regFault a else none
  | .jne a, s => if s.equal then none else regFault a

/-- The column "state already changed" of rule R165: what the cycle has written by the time of the `raise`. -/
def alreadyChanged : Instr → State → State
  | .push _, s => { s with sp := if s.sp = 0 then 511 else s.sp - 1 }
  | .call _, s =>
    let link : Byte := BitVec.ofNat 8 (s.pc.toNat + 2)
    if s.sp = 0 then { s with regs := s.regs.set 2 link, sp := 511 }
    else { s with regs := s.regs.set 2 link, sp := s.sp - 1, mem := memPut s.mem (s.sp.toNat - 1) link }
  | _, s => s

end Sys2Proof.Machine
end

