-- ==== Sys2Proof/Certificates/Slice0/Obligations.lean ====
section
/-! DEFINITION. The statements about this machine. Each docstring names the rule it formalises. The frame of an
instruction stands in its own statement: registers, memory byte by byte, `sp`, `equal`, run state, fault record, output. -/

open Sys2Proof Sys2Proof.Machine

/-! ### Encoding and decoding -/

/-- Decode and encode agree, for every instruction, every operand byte and whatever bytes follow it in memory
(rules R60, R61, R63, R70). -/
def Obligations.DecodeOfEncodeIsTheInstruction : Prop :=
  ∀ (i : Instr) (x y : Byte), decodeBytes (encode i ++ [x, y]) = .instr i

/-- The other direction: a window that decodes starts with the encoding of what it decodes to (rules R61, R62, R70). -/
def Obligations.DecodedWindowStartsWithTheEncoding : Prop :=
  ∀ (op a b : Byte) (i : Instr), decodeWindow op a b = .instr i → encode i = [op, a, b].take (instrLength i)

/-- Rule R68: every opcode byte other than the 13 is illegal, 243 of the 256 values, whatever the operand bytes. -/
def Obligations.ExactlyTheOther243OpcodesAreUnknown : Prop :=
  (∀ op a b : Byte, decodeWindow op a b = .unknownOpcode op ↔
    op ∉ ([0x01, 0x11, 0x45, 0x46, 0x47, 0x50, 0x54, 0x55, 0x56, 0x82, 0xA0, 0xA2, 0xA7] : List Byte)) ∧
  ((List.range 256).filter fun n => decide (lookupHandler (BitVec.ofNat 8 n) = none)).length = 243

/-- One word of each format of rule R61, and one of each family, decodes to the instruction rule R63 gives it. -/
def Obligations.SpecWordsDecodeAsWritten : Prop :=
  decodeWindow 0b00000001 0xFF 0xFF = .instr .hlt ∧ decodeWindow 0b10000010 0 8 = .instr (.ldi 0 8) ∧
  decodeWindow 0b10100000 0 1 = .instr (.add 0 1) ∧ decodeWindow 0b01000101 9 0 = .instr (.push 9) ∧
  decodeWindow 0b01010110 3 0 = .instr (.jne 3) ∧ decodeWindow 0b11111111 0 0 = .unknownOpcode 0xFF

/-- Rule R70: a byte of the window that is no operand of the instruction has no effect on what is decoded. -/
def Obligations.UnusedWindowBytesAreIgnored : Prop :=
  ∀ (op a b a' b' : Byte) (i : Instr), decodeWindow op a b = .instr i →
    (instrLength i = 1 → decodeWindow op a' b' = .instr i) ∧ (instrLength i = 2 → decodeWindow op a b' = .instr i)

/-! ### The step -/

/-- Rules R81, R82: when the three bytes at `pc` decode to an instruction, the step of a RUNNING machine runs it, and
adds nothing around it. -/
def Obligations.StepRunsTheDecodedInstruction : Prop :=
  ∀ (s : State) (i : Instr), CanExecute s →
    decodeWindow (memByte s.mem s.pc.toNat) (memByte s.mem (s.pc.toNat + 1)) (memByte s.mem (s.pc.toNat + 2)) = .instr i →
    step s = exec i s

/-- Rule R83 and rule R165 rows 1 to 3: at `pc` 254, 255 or 256 the fetch leaves memory, whatever the bytes are; the
record says mem, 256, and holds the opcode byte unless `pc = 256`; nothing else changes. -/
def Obligations.FetchBeyondMemoryFaults : Prop :=
  ∀ s : State, s.runState = .running → 254 ≤ s.pc.toNat → s.pc.toNat ≤ 256 →
    ∃ t, step s = .next t ∧ t.runState = .faulted ∧ t.fault.cause = .outOfRangeAddress ∧ t.fault.pc = s.pc ∧
      t.fault.infoKind = some .mem ∧ t.fault.infoValue.toNat = 256 ∧
      t.fault.opcodeValid = decide (s.pc.toNat ≤ 255) ∧
      (s.pc.toNat ≤ 255 → t.fault.opcode = memByte s.mem s.pc.toNat) ∧
      SameRegsExcept [] s t ∧ SameMemExcept [] s t ∧ t.pc = s.pc ∧ t.sp = s.sp ∧ t.equal = s.equal ∧ t.out = s.out

/-- Rules R68, R151: after a successful fetch, an opcode byte that is not one of the 13 keys raises UnknownOpcode,
recording the byte and the `pc`; no other state changes (rule R26 for the record's fields); the exit status is
non-zero (rule R34) and there is no further step (rule R187). Two clauses are the model's choices: that `fault_info`
has no kind here (log entry 5), and the name and form of the stop of the next step (log entry 1). -/
def Obligations.UnknownOpcodeFaults : Prop :=
  ∀ s : State, CanExecute s →
    memByte s.mem s.pc.toNat ∉
      ([0x01, 0x11, 0x45, 0x46, 0x47, 0x50, 0x54, 0x55, 0x56, 0x82, 0xA0, 0xA2, 0xA7] : List Byte) →
    ∃ t, step s = .next t ∧ t.runState = .faulted ∧ t.fault.cause = .unknownOpcode ∧ t.fault.pc = s.pc ∧
      t.fault.opcodeValid = true ∧ t.fault.opcode = memByte s.mem s.pc.toNat ∧
      t.fault.infoKind = none ∧ t.fault.infoValue.toNat = (memByte s.mem s.pc.toNat).toNat ∧
      SameRegsExcept [] s t ∧ SameMemExcept [] s t ∧ t.pc = s.pc ∧ t.sp = s.sp ∧ t.equal = s.equal ∧ t.out = s.out ∧
      (∃ n, exitStatus t = some n ∧ n ≠ 0) ∧ step t = .fault .machineFaulted

/-- Rules R90, R187: no cycle runs in HALTED or FAULTED; the step stops there by name, with no successor state (how it
stops is log entry 1). -/
def Obligations.StoppedMachineHasNoSuccessor : Prop :=
  ∀ s : State, (s.runState = .halted → step s = .fault .machineHalted) ∧
    (s.runState = .faulted → step s = .fault .machineFaulted)

/-- A RUNNING machine always has a next state: no instruction, encoding or address ends a run otherwise than by
HALTED or FAULTED (rules R81, R88, R93). -/
def Obligations.RunningStepAnswersANextState : Prop :=
  ∀ s : State, s.runState = .running → ∃ t, step s = .next t

/-- Every step keeps the invariant of the machine (rules R17, R18, R21, R26, R87, R94; log entry 3 for memory). -/
def Obligations.StepKeepsTheInvariant : Prop :=
  ∀ s t : State, Inv s → step s = .next t → Inv t

/-- The invariant holds at reset. -/
def Obligations.ResetMeetsTheInvariant : Prop := Inv State.reset

/-- Rule R17: a cycle that halts or faults leaves `pc` as it was at its start. -/
def Obligations.HaltingOrFaultingCycleKeepsPc : Prop :=
  ∀ s t : State, step s = .next t → t.runState ≠ .running → t.pc = s.pc

/-- Rule R87: only HLT halts the machine; the halt does not touch `pc`, which then holds the address of the HLT
opcode byte. -/
def Obligations.OnlyHltHaltsAndPcStaysAtIt : Prop :=
  ∀ s t : State, step s = .next t →
    (t.runState = .halted ↔ s.runState = .running ∧ s.pc.toNat ≤ 253 ∧ memByte s.mem s.pc.toNat = 0x01) ∧
    (t.runState = .halted → t.pc = s.pc ∧ memByte t.mem t.pc.toNat = 0x01)

/-- Rules R25, R157, R158: a step that faults records a cause other than none and UnsupportedAluOperation and the `pc`
of the cycle; a step that does not fault leaves the record alone. -/
def Obligations.FaultRecordIsWrittenExactlyOnAFault : Prop :=
  ∀ s t : State, step s = .next t →
    (t.runState = .faulted → (t.fault.cause = .unknownOpcode ∨ t.fault.cause = .outOfRangeAddress) ∧ t.fault.pc = s.pc) ∧
    (t.runState ≠ .faulted → t.fault = s.fault)

/-! ### Reset, load, status -/

/-- Rules R31, R181: the state after reset, every item, the fault record field by field. The kind in `fault_info` is
not stated: the spec gives it no code at reset (log entry 5). The values of `equal`, of the record and of `out` are the
spec's own decisions (log entry 2). -/
def Obligations.ResetState : Prop :=
  (∀ n : Nat, n < 256 → memByte State.reset.mem n = 0) ∧ (∀ r : Byte, r.toNat < 8 → regVal State.reset r = 0) ∧
  State.reset.pc = 0 ∧ State.reset.sp = 256 ∧ State.reset.runState = .running ∧ State.reset.equal = false ∧
  causeCode State.reset.fault.cause = 0 ∧ State.reset.fault.pc = 0 ∧ State.reset.fault.opcodeValid = false ∧
  State.reset.fault.opcode = 0 ∧ State.reset.fault.infoValue = 0 ∧ State.reset.out = []

/-- Rule R32: the load writes set memory, in order, so that the last write to an address wins; they touch nothing else. -/
def Obligations.LoadWritesAreAppliedInOrder : Prop :=
  ∀ (ws : List (Byte × Byte)) (s : State), Memory.wf s.mem →
    (∀ n : Nat, memByte (load ws s).mem n =
      match ws.reverse.find? (fun w => decide (w.1.toNat = n)) with
      | some w => w.2
      | none => memByte s.mem n) ∧
    load ws s = { s with mem := (load ws s).mem }

/-- Rules R54, R182: the first cycle sees the program image over a background of zeros, and every other item at its
reset value. -/
def Obligations.BootShowsTheImageOverZeros : Prop :=
  ∀ image : List Byte, image.length ≤ 256 →
    (∀ n : Nat, memByte (boot (imageAt 0 image)).mem n = image.getD n 0) ∧
    boot (imageAt 0 image) = { State.reset with mem := (boot (imageAt 0 image)).mem }

/-- Rule R34: exit status 0 in HALTED, non-zero in FAULTED, none while RUNNING. The value of the non-zero status is
free (log entry 7). -/
def Obligations.ExitStatusTellsHowTheRunEnded : Prop :=
  ∀ s : State, (exitStatus s = none ↔ s.runState = .running) ∧ (exitStatus s = some 0 ↔ s.runState = .halted) ∧
    ((∃ n, exitStatus s = some n ∧ n ≠ 0) ↔ s.runState = .faulted)

/-- Rule R155: the numbers of the causes. -/
def Obligations.CauseCodesAreNumbered : Prop :=
  causeCode .none = 0 ∧ causeCode .unknownOpcode = 1 ∧ causeCode .outOfRangeAddress = 2 ∧
    causeCode .unsupportedAluOperation = 3

/-- Rule R157: what taking a fatal condition does: FAULTED and the record, nothing saved elsewhere, `pc` not changed. -/
def Obligations.FatalConditionEntry : Prop :=
  ∀ (p : Ptr) (op : Option Byte) (c : Condition) (s : State),
    (takeFatal p op c s).runState = .faulted ∧ (takeFatal p op c s).fault.cause = conditionCause c ∧
    (takeFatal p op c s).fault.pc = p ∧ (takeFatal p op c s).fault.opcodeValid = op.isSome ∧
    (∀ b, op = some b → (takeFatal p op c s).fault.opcode = b) ∧
    (∀ k v, c = .outOfRangeAddress k v →
      (takeFatal p op c s).fault.infoKind = some k ∧ (takeFatal p op c s).fault.infoValue = v) ∧
    SameRegsExcept [] s (takeFatal p op c s) ∧ SameMemExcept [] s (takeFatal p op c s) ∧
    (takeFatal p op c s).pc = s.pc ∧ (takeFatal p op c s).sp = s.sp ∧ (takeFatal p op c s).equal = s.equal ∧
    (takeFatal p op c s).out = s.out

/-! ### The instructions: effect, completion and frame -/

/-- HLT, rule R100. -/
def Obligations.HltHalts : Prop :=
  ∀ s : State, CanExecute s →
    ∃ t, exec .hlt s = .next t ∧ t.runState = .halted ∧ t.pc = s.pc ∧ SameRegsExcept [] s t ∧ SameMemExcept [] s t ∧
      t.sp = s.sp ∧ t.equal = s.equal ∧ t.fault = s.fault ∧ t.out = s.out

/-- LDI, rule R101: every immediate 0 to 255. -/
def Obligations.LdiWritesTheImmediate : Prop :=
  ∀ (s : State) (a b : Byte), CanExecute s → NamesReg a →
    ∃ t, exec (.ldi a b) s = .next t ∧ regVal t a = b ∧ t.pc.toNat = s.pc.toNat + 3 ∧ SameRegsExcept [a] s t ∧
      SameMemExcept [] s t ∧ t.sp = s.sp ∧ t.equal = s.equal ∧ SameStatus s t

/-- PRN, rules R28, R102. -/
def Obligations.PrnEmitsTheRegister : Prop :=
  ∀ (s : State) (a : Byte), CanExecute s → NamesReg a →
    ∃ t, exec (.prn a) s = .next t ∧ t.out = s.out ++ [regVal s a] ∧ t.pc.toNat = s.pc.toNat + 2 ∧
      SameRegsExcept [] s t ∧ SameMemExcept [] s t ∧ t.sp = s.sp ∧ t.equal = s.equal ∧ t.runState = s.runState ∧
      t.fault = s.fault

/-- ADD, rules R111, R115; `a = b` included. -/
def Obligations.AddStoresTheSumModulo256 : Prop :=
  ∀ (s : State) (a b : Byte), CanExecute s → NamesReg a → NamesReg b →
    ∃ t, exec (.add a b) s = .next t ∧ (regVal t a).toNat = ((regVal s a).toNat + (regVal s b).toNat) % 256 ∧
      t.pc.toNat = s.pc.toNat + 3 ∧ SameRegsExcept [a] s t ∧ SameMemExcept [] s t ∧ t.sp = s.sp ∧ t.equal = s.equal ∧
      SameStatus s t

/-- MUL, rules R112, R115; `a = b` included. -/
def Obligations.MulStoresTheProductModulo256 : Prop :=
  ∀ (s : State) (a b : Byte), CanExecute s → NamesReg a → NamesReg b →
    ∃ t, exec (.mul a b) s = .next t ∧ (regVal t a).toNat = ((regVal s a).toNat * (regVal s b).toNat) % 256 ∧
      t.pc.toNat = s.pc.toNat + 3 ∧ SameRegsExcept [a] s t ∧ SameMemExcept [] s t ∧ t.sp = s.sp ∧ t.equal = s.equal ∧
      SameStatus s t

/-- CMP, rule R113: sets and clears. -/
def Obligations.CmpSetsEqualExactlyOnEqualRegisters : Prop :=
  ∀ (s : State) (a b : Byte), CanExecute s → NamesReg a → NamesReg b →
    ∃ t, exec (.cmp a b) s = .next t ∧ (t.equal = true ↔ (regVal s a).toNat = (regVal s b).toNat) ∧
      t.pc.toNat = s.pc.toNat + 3 ∧ SameRegsExcept [] s t ∧ SameMemExcept [] s t ∧ t.sp = s.sp ∧ SameStatus s t

/-- PUSH, rule R121, on a stack that is not full. Memory in canonical form is the invariant's. -/
def Obligations.PushStoresBelowTheOldTop : Prop :=
  ∀ (s : State) (a : Byte), CanExecute s → Memory.wf s.mem → NamesReg a → 1 ≤ s.sp.toNat → s.sp.toNat ≤ 256 →
    ∃ t, exec (.push a) s = .next t ∧ t.sp.toNat + 1 = s.sp.toNat ∧ t.sp = pushAddr s ∧
      memByte t.mem (pushAddr s).toNat = regVal s a ∧ SameMemExcept [(pushAddr s).toNat] s t ∧
      t.pc.toNat = s.pc.toNat + 2 ∧ SameRegsExcept [] s t ∧ t.equal = s.equal ∧ SameStatus s t

/-- POP, rule R122, on a stack that is not empty. -/
def Obligations.PopLoadsTheTop : Prop :=
  ∀ (s : State) (a : Byte), CanExecute s → NamesReg a → s.sp.toNat ≤ 255 →
    ∃ t, exec (.pop a) s = .next t ∧ regVal t a = memByte s.mem s.sp.toNat ∧ t.sp.toNat = s.sp.toNat + 1 ∧
      t.pc.toNat = s.pc.toNat + 2 ∧ SameRegsExcept [a] s t ∧ SameMemExcept [] s t ∧ t.equal = s.equal ∧ SameStatus s t

/-- CALL, rules R14, R131, `CALL R2` included: the target is read after the scratch register is written. -/
def Obligations.CallPushesTheReturnAddressAndJumps : Prop :=
  ∀ (s : State) (a : Byte), CanExecute s → Memory.wf s.mem → NamesReg a → 1 ≤ s.sp.toNat → s.sp.toNat ≤ 256 →
    ∃ t, exec (.call a) s = .next t ∧ (regVal t 2).toNat = s.pc.toNat + 2 ∧ t.sp.toNat + 1 = s.sp.toNat ∧
      (memByte t.mem (pushAddr s).toNat).toNat = s.pc.toNat + 2 ∧ SameMemExcept [(pushAddr s).toNat] s t ∧
      t.pc.toNat = (if a = 2 then s.pc.toNat + 2 else (regVal s a).toNat) ∧
      SameRegsExcept [2] s t ∧ t.equal = s.equal ∧ SameStatus s t

/-- RET, rules R14, R132, on a stack that is not empty. -/
def Obligations.RetPopsTheProgramCounter : Prop :=
  ∀ s : State, CanExecute s → s.sp.toNat ≤ 255 →
    ∃ t, exec .ret s = .next t ∧ regVal t 2 = memByte s.mem s.sp.toNat ∧
      t.pc.toNat = (memByte s.mem s.sp.toNat).toNat ∧ t.sp.toNat = s.sp.toNat + 1 ∧ SameRegsExcept [2] s t ∧
      SameMemExcept [] s t ∧ t.equal = s.equal ∧ SameStatus s t

/-- JMP, rules R130, R133. -/
def Obligations.JmpSetsPcToTheRegister : Prop :=
  ∀ (s : State) (a : Byte), CanExecute s → NamesReg a →
    ∃ t, exec (.jmp a) s = .next t ∧ t.pc.toNat = (regVal s a).toNat ∧ SameRegsExcept [] s t ∧ SameMemExcept [] s t ∧
      t.sp = s.sp ∧ t.equal = s.equal ∧ SameStatus s t

/-- JEQ, rules R134, R137: taken when `equal = 1`; not taken it advances by 2, whatever the operand byte. -/
def Obligations.JeqJumpsExactlyWhenEqual : Prop :=
  ∀ (s : State) (a : Byte), CanExecute s → (s.equal = true → NamesReg a) →
    ∃ t, exec (.jeq a) s = .next t ∧ t.pc.toNat = (if s.equal = true then (regVal s a).toNat else s.pc.toNat + 2) ∧
      SameRegsExcept [] s t ∧ SameMemExcept [] s t ∧ t.sp = s.sp ∧ t.equal = s.equal ∧ SameStatus s t

/-- JNE, rules R135, R137: taken when `equal = 0`; not taken it advances by 2, whatever the operand byte. -/
def Obligations.JneJumpsExactlyWhenNotEqual : Prop :=
  ∀ (s : State) (a : Byte), CanExecute s → (s.equal = false → NamesReg a) →
    ∃ t, exec (.jne a) s = .next t ∧ t.pc.toNat = (if s.equal = false then (regVal s a).toNat else s.pc.toNat + 2) ∧
      SameRegsExcept [] s t ∧ SameMemExcept [] s t ∧ t.sp = s.sp ∧ t.equal = s.equal ∧ SameStatus s t

/-! ### Where the instructions fault -/

/-- Rules R101, R102, R133 and rows 5, 6, 16 of rule R165: LDI, PRN and JMP with a register number above 7 fault and
change nothing else. -/
def Obligations.LdiPrnJmpFaultOnABadRegister : Prop :=
  ∀ (s : State) (a b : Byte), CanExecute s → 7 < a.toNat → ∀ (i : Instr) (op : Byte),
    (i, op) ∈ [(.ldi a b, 0x82), (.prn a, 0x47), (.jmp a, 0x54)] →
    ∃ t, exec i s = .next t ∧ FaultedAccess op .reg a.toNat s t ∧ SameRegsExcept [] s t ∧ SameMemExcept [] s t ∧
      t.sp = s.sp

/-- Rules R111, R112, R113, R159: ADD, MUL and CMP fault on operand A first, then on operand B, and change nothing else. -/
def Obligations.AluFaultsOnOperandAFirst : Prop :=
  ∀ (s : State) (a b : Byte), CanExecute s → (7 < a.toNat ∨ 7 < b.toNat) → ∀ (i : Instr) (op : Byte),
    (i, op) ∈ [(.add a b, 0xA0), (.mul a b, 0xA2), (.cmp a b, 0xA7)] →
    ∃ t, exec i s = .next t ∧ FaultedAccess op .reg (if 7 < a.toNat then a.toNat else b.toNat) s t ∧
      SameRegsExcept [] s t ∧ SameMemExcept [] s t ∧ t.sp = s.sp

/-- Rules R121, R159, R165 rows 9 and 10: a faulting PUSH leaves `sp` decremented (511 from 0) and writes no memory;
the register fault is the one recorded when both hold. -/
def Obligations.FaultingPushLeavesSpDecremented : Prop :=
  ∀ (s : State) (a : Byte), CanExecute s → s.sp.toNat ≤ 256 → (7 < a.toNat ∨ s.sp.toNat = 0) →
    ∃ t, exec (.push a) s = .next t ∧
      (if 7 < a.toNat then FaultedAccess 0x45 .reg a.toNat s t else FaultedAccess 0x45 .mem 511 s t) ∧
      t.sp.toNat = (if s.sp.toNat = 0 then 511 else s.sp.toNat - 1) ∧ SameRegsExcept [] s t ∧ SameMemExcept [] s t

/-- Rules R122, R124, R165 rows 11 and 12: a faulting POP changes nothing else; the empty stack is the fault recorded
when both hold. -/
def Obligations.FaultingPopChangesNothing : Prop :=
  ∀ (s : State) (a : Byte), CanExecute s → s.sp.toNat ≤ 256 → (s.sp.toNat = 256 ∨ 7 < a.toNat) →
    ∃ t, exec (.pop a) s = .next t ∧
      (if s.sp.toNat = 256 then FaultedAccess 0x46 .mem 256 s t else FaultedAccess 0x46 .reg a.toNat s t) ∧
      t.sp = s.sp ∧ SameRegsExcept [] s t ∧ SameMemExcept [] s t

/-- Rules R131, R158, R165 rows 13 and 14: a faulting CALL keeps the scratch register, the decremented `sp` and, when
only the target register is bad, the written stack cell. -/
def Obligations.FaultingCallKeepsItsPartialEffects : Prop :=
  ∀ (s : State) (a : Byte), CanExecute s → Memory.wf s.mem → s.sp.toNat ≤ 256 → (s.sp.toNat = 0 ∨ 7 < a.toNat) →
    ∃ t, exec (.call a) s = .next t ∧ (regVal t 2).toNat = s.pc.toNat + 2 ∧ SameRegsExcept [2] s t ∧
      (if s.sp.toNat = 0 then
        FaultedAccess 0x50 .mem 511 s t ∧ t.sp.toNat = 511 ∧ SameMemExcept [] s t
       else
        FaultedAccess 0x50 .reg a.toNat s t ∧ t.sp.toNat = s.sp.toNat - 1 ∧
          (memByte t.mem (pushAddr s).toNat).toNat = s.pc.toNat + 2 ∧ SameMemExcept [(pushAddr s).toNat] s t)

/-- Rules R132, R165 row 15: RET on the empty stack faults and changes nothing else. -/
def Obligations.RetOnTheEmptyStackFaults : Prop :=
  ∀ s : State, CanExecute s → s.sp.toNat = 256 →
    ∃ t, exec .ret s = .next t ∧ FaultedAccess 0x11 .mem 256 s t ∧ SameRegsExcept [] s t ∧ SameMemExcept [] s t ∧
      t.sp = s.sp

/-- Rules R134, R135, R165 rows 17 and 18: a taken conditional jump with a register number above 7 faults and changes
nothing else. -/
def Obligations.TakenJumpFaultsOnABadRegister : Prop :=
  ∀ (s : State) (a : Byte), CanExecute s → 7 < a.toNat →
    ∃ t, exec (if s.equal = true then .jeq a else .jne a) s = .next t ∧
      FaultedAccess (if s.equal = true then 0x55 else 0x56) .reg a.toNat s t ∧ SameRegsExcept [] s t ∧
      SameMemExcept [] s t ∧ t.sp = s.sp

/-- Rules R158, R159, R165: the complete list of fault sites of the handlers. An instruction faults exactly where the
list has a site, with the condition of the first site in sub-step order, and the state is then the one the column
"state already changed" gives, with the fault record filled. -/
def Obligations.InstructionsFaultExactlyAtTheListedSites : Prop :=
  ∀ (i : Instr) (s : State), CanExecute s → s.sp.toNat ≤ 256 →
    match faultSite i s with
    | some c => exec i s = .next (takeFatal s.pc (some (opcodeByte (handlerOf i))) c (alreadyChanged i s))
    | none => ∃ t, exec i s = .next t ∧ t.runState ≠ .faulted

/-- A well-formed instruction faults only at the limits of the stack (rules R13, R124, R165). -/
def Obligations.WellFormedInstructionsFaultOnlyAtTheStackLimits : Prop :=
  ∀ (i : Instr) (s : State), CanExecute s → s.sp.toNat ≤ 256 → i.wellFormed = true →
    ∃ t, exec i s = .next t ∧
      (t.runState = .faulted ↔ (pushes i = true ∧ s.sp.toNat = 0) ∨ (pops i = true ∧ s.sp.toNat = 256))

/-! ### Rules of the whole machine -/

/-- Rule R22: CMP is the only writer of `equal`, JEQ and JNE are its only readers. The reading is stated by comparing
two runs that differ in the flag alone: unless the instruction is a conditional jump, its cycle does the same in both,
the flag staying as it was in each, or becoming the same in both after a CMP that did not fault. -/
def Obligations.EqualIsWrittenByCmpAndReadByJumpsOnly : Prop :=
  ∀ (i : Instr) (s t : State), CanExecute s → exec i s = .next t →
    ((∀ a b, i ≠ .cmp a b) → t.equal = s.equal) ∧
    (∀ a b, i = .cmp a b → t.runState ≠ .faulted → (t.equal = true ↔ regVal s a = regVal s b)) ∧
    ((∀ a, i ≠ .jeq a ∧ i ≠ .jne a) → ((∀ a b, i ≠ .cmp a b) ∨ t.runState = .faulted) →
      ∀ e : Bool, exec i { s with equal := e } = .next { t with equal := e }) ∧
    (∀ a b, i = .cmp a b → t.runState ≠ .faulted → ∀ e : Bool, exec i { s with equal := e } = .next t)

/-- Rules R28, R91: the output only grows, by PRN alone and by one value. -/
def Obligations.OutputGrowsOnlyByPrn : Prop :=
  ∀ (i : Instr) (s t : State), exec i s = .next t →
    t.out = s.out ∨ ∃ a, i = .prn a ∧ a.toNat ≤ 7 ∧ t.out = s.out ++ [regVal s a]

/-- Rules R20, R21, R120: only PUSH, POP, CALL and RET touch `sp`; a push moves it down by one, faulting or
not; a pop moves it up by one, unless it faults. -/
def Obligations.SpMovesOnlyByPushAndPop : Prop :=
  ∀ (i : Instr) (s t : State), CanExecute s → exec i s = .next t →
    (pushes i = false ∧ pops i = false → t.sp = s.sp) ∧ (pushes i = true → t.sp = s.sp - 1) ∧
    (pops i = true → t.sp = if t.runState = .faulted then s.sp else s.sp + 1)

/-- Rules R42, R47: memory is written only by PUSH and CALL, and only the one cell at the new `sp`. -/
def Obligations.MemoryIsWrittenOnlyAtThePushAddress : Prop :=
  ∀ (i : Instr) (s t : State), Memory.wf s.mem → exec i s = .next t →
    (pushes i = false → SameMemExcept [] s t) ∧ (pushes i = true → SameMemExcept [(pushAddr s).toNat] s t)

/-- Rule R15, column "registers written". -/
def Obligations.RegistersAreWrittenOnlyAsTabulated : Prop :=
  ∀ (i : Instr) (s t : State), exec i s = .next t → SameRegsExcept (mayWriteRegs i) s t

/-- Rules R17, R86, R91: a cycle that goes on leaves `pc` one instruction length further, unless its handler wrote
`pc` itself, which leaves it at 0 to 255. -/
def Obligations.PcAdvancesByTheInstructionLength : Prop :=
  ∀ (i : Instr) (s t : State), CanExecute s → exec i s = .next t → t.runState = .running →
    (setsPc i s = false → t.pc.toNat = s.pc.toNat + (encode i).length) ∧ (setsPc i s = true → t.pc.toNat ≤ 255)

/-- Rule R137: a conditional jump that is not taken advances `pc` by 2; one that is taken does not advance at all. -/
def Obligations.ConditionalJumpAdvancesByTwoOnlyWhenNotTaken : Prop :=
  ∀ (s : State) (a : Byte), CanExecute s →
    (s.equal = false → ∃ t, exec (.jeq a) s = .next t ∧ t.pc.toNat = s.pc.toNat + 2) ∧
    (s.equal = true → ∃ t, exec (.jne a) s = .next t ∧ t.pc.toNat = s.pc.toNat + 2) ∧
    (NamesReg a → s.equal = true → ∃ t, exec (.jeq a) s = .next t ∧ t.pc.toNat = (regVal s a).toNat) ∧
    (NamesReg a → s.equal = false → ∃ t, exec (.jne a) s = .next t ∧ t.pc.toNat = (regVal s a).toNat)

/-- Rule R123: PUSH(r) then POP(r'), whenever neither faults and nothing between them writes the pushed cell (`u` is
the state the POP runs in, its stack as the PUSH left it): r' receives the original value of r, `sp` returns to its
value before the PUSH, and the popped cell keeps the pushed value. -/
def Obligations.PushThenPopRoundTrip : Prop :=
  ∀ (s t u : State) (r r' : Byte), Memory.wf s.mem → 1 ≤ s.sp.toNat → s.sp.toNat ≤ 256 → NamesReg r → NamesReg r' →
    exec (.push r) s = .next t → u.sp = t.sp → memByte u.mem t.sp.toNat = memByte t.mem t.sp.toNat →
    ∃ v, exec (.pop r') u = .next v ∧ v.runState = u.runState ∧ regVal v r' = regVal s r ∧ v.sp = s.sp ∧
      memByte v.mem t.sp.toNat = regVal s r

/-- Rule R136: a routine that leaves `sp` where it found it, with the return address cell intact, and ends in RET
resumes at `PC_call + 2`. -/
def Obligations.CallThenRetResumesAfterTheCall : Prop :=
  ∀ (s t u : State) (a : Byte), CanExecute s → Memory.wf s.mem → 1 ≤ s.sp.toNat → s.sp.toNat ≤ 256 → NamesReg a →
    exec (.call a) s = .next t →
    u.sp = t.sp → memByte u.mem t.sp.toNat = memByte t.mem t.sp.toNat →
    ∃ v, exec .ret u = .next v ∧ v.pc.toNat = s.pc.toNat + 2 ∧ v.sp = s.sp ∧ (regVal v 2).toNat = s.pc.toNat + 2 ∧
      v.runState = u.runState

/-- Rule R51: a byte written by PUSH or CALL is seen by the very next fetch. `v` is the byte pushed, `seen n` is what
cell `n` then holds: `v` at the push address, and what it held before elsewhere. Whatever `v` is and whichever of the
three window positions it has, the next cycle fetches and decodes what is seen, and runs it, or takes the
UnknownOpcode of a byte that is no opcode. -/
def Obligations.PushedByteIsFetchedNext : Prop :=
  ∀ (s t : State) (i : Instr) (a v : Byte), CanExecute s → Memory.wf s.mem → NamesReg a →
    1 ≤ s.sp.toNat → s.sp.toNat ≤ 256 →
    (i = .push a ∧ v = regVal s a) ∨ (i = .call a ∧ v.toNat = s.pc.toNat + 2) →
    exec i s = .next t → t.pc.toNat ≤ 253 →
    let seen : Nat → Byte := fun n => if n = (pushAddr s).toNat then v else memByte s.mem n
    let window := decodeWindow (seen t.pc.toNat) (seen (t.pc.toNat + 1)) (seen (t.pc.toNat + 2))
    fetchDecode t = fetchedOf window ∧
    (∀ j, window = .instr j → step t = exec j t) ∧
    (∀ op, window = .unknownOpcode op → step t = .next (takeFatal t.pc (some op) (.unknownOpcode op) t))

/-- Rules R45, R51, R82: an instruction's own store cannot affect it: the window is decoded before the handler runs,
so PUSH onto its own opcode byte still completes as PUSH. -/
def Obligations.PushOntoItselfCompletes : Prop :=
  ∀ (s : State) (a : Byte), CanExecute s → Memory.wf s.mem → NamesReg a → s.sp.toNat = s.pc.toNat + 1 →
    memByte s.mem s.pc.toNat = 0x45 → memByte s.mem (s.pc.toNat + 1) = a →
    ∃ t, step s = .next t ∧ t.runState = .running ∧ t.pc.toNat = s.pc.toNat + 2 ∧
      memByte t.mem s.pc.toNat = regVal s a ∧ SameMemExcept [s.pc.toNat] s t

/-- Rule R135: for every state exactly one of `JEQ Ra` and `JNE Ra` is taken: one goes to the register's value and the
other to the next instruction. -/
def Obligations.ExactlyOneConditionalJumpIsTaken : Prop :=
  ∀ (s t u : State) (a : Byte), CanExecute s → NamesReg a → exec (.jeq a) s = .next t → exec (.jne a) s = .next u →
    (t.pc.toNat = (regVal s a).toNat ∧ u.pc.toNat = s.pc.toNat + 2) ∨
      (t.pc.toNat = s.pc.toNat + 2 ∧ u.pc.toNat = (regVal s a).toNat)

/-- Rules R17, R18, R83: `pc` never goes from the top of memory to address 0. From a state of the invariant a step that
does not fault has `pc` at 253 or below before it and at 256 or below after it; and where the instruction it fetched
does not set `pc` itself and the machine goes on, `pc` has moved up by the instruction's length, never down. -/
def Obligations.PcNeverWraps : Prop :=
  ∀ s t : State, Inv s → step s = .next t → t.runState ≠ .faulted →
    s.pc.toNat ≤ 253 ∧ t.pc.toNat ≤ 256 ∧
    ∀ i, fetchDecode s = .instr i → setsPc i s = false → t.runState = .running →
      t.pc.toNat = s.pc.toNat + (encode i).length ∧ s.pc.toNat < t.pc.toNat
end

