-- ==== Sys2Proof/Laws/Memory.lean ====
section
/-! SUPPORT. What the memory operations do: a read after a write, and that every one keeps the canonical form. -/

namespace Sys2Proof.Machine

/-- A cell below every listed address reads as an unlisted one. -/
theorem memByte_of_lt (m : Memory) (a : Nat) (h : ∀ c ∈ m, a < c.1) : memByte m a = Config.resetCell := by
  induction m with
  | nil => rfl
  | cons c m ih =>
    obtain ⟨b, w⟩ := c
    have hb : a < b := h (b, w) (by simp)
    simp only [memByte]
    rw [if_neg (by omega), ih fun d hd => h d (by simp [hd])]

/-- The addresses listed after a write are those listed before and the one written. -/
theorem mem_memPut (m : Memory) (a : Nat) (v : Byte) (c : Host.Cell) (hc : c ∈ memPut m a v) : c ∈ m ∨ c = (a, v) := by
  induction m with
  | nil =>
    simp only [memPut] at hc
    split at hc <;> simp_all
  | cons d m ih =>
    obtain ⟨b, w⟩ := d
    simp only [memPut] at hc
    split at hc
    · split at hc <;> simp at hc ⊢ <;> tauto
    · split at hc
      · split at hc <;> simp at hc ⊢ <;> tauto
      · simp only [List.mem_cons] at hc ⊢
        rcases hc with hc | hc
        · exact .inl (.inl hc)
        · rcases ih hc with h | h
          · exact .inl (.inr h)
          · exact .inr h

/-- No entry of the written memory reads as an unlisted cell, if none did before. -/
theorem memPut_ne_resetCell (m : Memory) (a : Nat) (v : Byte) (h : ∀ c ∈ m, c.2 ≠ Config.resetCell) :
    ∀ c ∈ memPut m a v, c.2 ≠ Config.resetCell := by
  induction m with
  | nil =>
    intro c hc
    simp only [memPut] at hc
    split at hc <;> simp_all
  | cons d m ih =>
    obtain ⟨b, w⟩ := d
    intro c hc
    have ih' := ih fun e he => h e (by simp [he])
    simp only [memPut] at hc
    split at hc
    · split at hc
      · exact h c hc
      · rcases List.mem_cons.1 hc with rfl | hc
        · assumption
        · exact h c hc
    · split at hc
      · split at hc
        · exact h c (by simp [hc])
        · rcases List.mem_cons.1 hc with rfl | hc
          · assumption
          · exact h c (by simp [hc])
      · rcases List.mem_cons.1 hc with rfl | hc
        · exact h _ (by simp)
        · exact ih' c hc

/-- A write keeps the addresses strictly rising. -/
theorem memPut_sorted (m : Memory) (a : Nat) (v : Byte) (h : m.Pairwise (fun c d => c.1 < d.1)) :
    (memPut m a v).Pairwise (fun c d => c.1 < d.1) := by
  induction m with
  | nil => simp only [memPut]; split <;> simp
  | cons d m ih =>
    obtain ⟨b, w⟩ := d
    obtain ⟨hb, hm⟩ := List.pairwise_cons.1 h
    simp only [memPut]
    split
    · split
      · exact h
      · refine List.pairwise_cons.2 ⟨fun c hc => ?_, h⟩
        rcases List.mem_cons.1 hc with rfl | hc
        · assumption
        · have := hb c hc
          simp only at this ⊢
          omega
    · split
      · split
        · exact hm
        · subst_vars
          exact List.pairwise_cons.2 ⟨hb, hm⟩
      · refine List.pairwise_cons.2 ⟨fun c hc => ?_, ih hm⟩
        rcases mem_memPut m a v c hc with hc | rfl
        · exact hb c hc
        · simp only
          omega

/-- A write inside the 256 cells keeps the canonical form. -/
theorem memPut_wf (m : Memory) (a : Nat) (v : Byte) (ha : a < 256) (h : Memory.wf m) : Memory.wf (memPut m a v) := by
  refine ⟨memPut_sorted m a v h.1, fun c hc => ⟨?_, ?_⟩⟩
  · rcases mem_memPut m a v c hc with hm | rfl
    · exact (h.2 c hm).1
    · exact ha
  · exact memPut_ne_resetCell m a v (fun d hd => (h.2 d hd).2) c hc

/-- A read after a write: the cell written reads as the value written, every other as before. -/
theorem memByte_memPut (m : Memory) (a : Nat) (v : Byte) (n : Nat) (h : m.Pairwise (fun c d => c.1 < d.1)) :
    memByte (memPut m a v) n = if n = a then v else memByte m n := by
  induction m with
  | nil =>
    simp only [memPut]
    split <;> split <;> simp_all [memByte]
  | cons d m ih =>
    obtain ⟨b, w⟩ := d
    obtain ⟨hb, hm⟩ := List.pairwise_cons.1 h
    have low : ∀ k, k ≤ b → memByte m k = Config.resetCell := fun k hk =>
      memByte_of_lt m k fun c hc => by
        have := hb c hc
        simp only at this
        omega
    simp only [memPut]
    split
    · rename_i hab
      split
      · rename_i hv
        split
        · rename_i hn
          subst hn
          simp only [memByte]
          rw [if_neg (by omega), low n (by omega), hv]
        · rfl
      · simp only [memByte]
    · split
      · rename_i hab
        subst hab
        split
        · rename_i hv
          split
          · rename_i hn
            subst hn
            rw [low n (le_refl n), hv]
          · rename_i hn
            simp only [memByte]
            rw [if_neg hn]
        · simp only [memByte]
          split <;> simp_all
      · rename_i hlt hne
        simp only [memByte]
        rw [ih hm]
        split <;> split <;> first | rfl | (exfalso; omega)

/-- The load writes keep the canonical form. -/
theorem load_wf (ws : List (Byte × Byte)) (s : State) (h : Memory.wf s.mem) : Memory.wf (load ws s).mem := by
  induction ws generalizing s with
  | nil => exact h
  | cons w ws ih => exact ih (loadByte w s) (memPut_wf s.mem w.1.toNat w.2 w.1.isLt h)

/-- A write of memory that answers keeps the canonical form. -/
theorem memWrite_wf (a : Nat) (v : Byte) (s t : State) (u : Unit) (h : Memory.wf s.mem)
    (hw : memWrite a v s = .ok u t) : Memory.wf t.mem := by
  unfold memWrite at hw
  split at hw
  · rename_i ha
    injection hw with _ ht
    subst ht
    exact memPut_wf s.mem a v ha h
  · cases hw

/-- Memory at reset has the canonical form. -/
theorem reset_mem_wf : Memory.wf State.reset.mem := by decide

end Sys2Proof.Machine
end

