-- ==== Sys2Proof/Laws/State.lean ====
section
/-! SUPPORT. One lemma per field of State per named update, so that no proof unfolds an update. -/

namespace Sys2Proof.Machine

@[simp] theorem setMem_mem (m : Memory) (s : State) : (setMem m s).mem = m := rfl
@[simp] theorem setMem_regs (m : Memory) (s : State) : (setMem m s).regs = s.regs := rfl
@[simp] theorem setMem_pc (m : Memory) (s : State) : (setMem m s).pc = s.pc := rfl
@[simp] theorem setMem_sp (m : Memory) (s : State) : (setMem m s).sp = s.sp := rfl
@[simp] theorem setMem_equal (m : Memory) (s : State) : (setMem m s).equal = s.equal := rfl
@[simp] theorem setMem_runState (m : Memory) (s : State) : (setMem m s).runState = s.runState := rfl
@[simp] theorem setMem_fault (m : Memory) (s : State) : (setMem m s).fault = s.fault := rfl
@[simp] theorem setMem_out (m : Memory) (s : State) : (setMem m s).out = s.out := rfl

@[simp] theorem setPc_mem (p : Ptr) (s : State) : (setPc p s).mem = s.mem := rfl
@[simp] theorem setPc_regs (p : Ptr) (s : State) : (setPc p s).regs = s.regs := rfl
@[simp] theorem setPc_pc (p : Ptr) (s : State) : (setPc p s).pc = p := rfl
@[simp] theorem setPc_sp (p : Ptr) (s : State) : (setPc p s).sp = s.sp := rfl
@[simp] theorem setPc_equal (p : Ptr) (s : State) : (setPc p s).equal = s.equal := rfl
@[simp] theorem setPc_runState (p : Ptr) (s : State) : (setPc p s).runState = s.runState := rfl
@[simp] theorem setPc_fault (p : Ptr) (s : State) : (setPc p s).fault = s.fault := rfl
@[simp] theorem setPc_out (p : Ptr) (s : State) : (setPc p s).out = s.out := rfl

@[simp] theorem setSp_mem (p : Ptr) (s : State) : (setSp p s).mem = s.mem := rfl
@[simp] theorem setSp_regs (p : Ptr) (s : State) : (setSp p s).regs = s.regs := rfl
@[simp] theorem setSp_pc (p : Ptr) (s : State) : (setSp p s).pc = s.pc := rfl
@[simp] theorem setSp_sp (p : Ptr) (s : State) : (setSp p s).sp = p := rfl
@[simp] theorem setSp_equal (p : Ptr) (s : State) : (setSp p s).equal = s.equal := rfl
@[simp] theorem setSp_runState (p : Ptr) (s : State) : (setSp p s).runState = s.runState := rfl
@[simp] theorem setSp_fault (p : Ptr) (s : State) : (setSp p s).fault = s.fault := rfl
@[simp] theorem setSp_out (p : Ptr) (s : State) : (setSp p s).out = s.out := rfl

@[simp] theorem setEqual_mem (b : Bool) (s : State) : (setEqual b s).mem = s.mem := rfl
@[simp] theorem setEqual_regs (b : Bool) (s : State) : (setEqual b s).regs = s.regs := rfl
@[simp] theorem setEqual_pc (b : Bool) (s : State) : (setEqual b s).pc = s.pc := rfl
@[simp] theorem setEqual_sp (b : Bool) (s : State) : (setEqual b s).sp = s.sp := rfl
@[simp] theorem setEqual_equal (b : Bool) (s : State) : (setEqual b s).equal = b := rfl
@[simp] theorem setEqual_runState (b : Bool) (s : State) : (setEqual b s).runState = s.runState := rfl
@[simp] theorem setEqual_fault (b : Bool) (s : State) : (setEqual b s).fault = s.fault := rfl
@[simp] theorem setEqual_out (b : Bool) (s : State) : (setEqual b s).out = s.out := rfl

@[simp] theorem setRunState_mem (r : RunState) (s : State) : (setRunState r s).mem = s.mem := rfl
@[simp] theorem setRunState_regs (r : RunState) (s : State) : (setRunState r s).regs = s.regs := rfl
@[simp] theorem setRunState_pc (r : RunState) (s : State) : (setRunState r s).pc = s.pc := rfl
@[simp] theorem setRunState_sp (r : RunState) (s : State) : (setRunState r s).sp = s.sp := rfl
@[simp] theorem setRunState_equal (r : RunState) (s : State) : (setRunState r s).equal = s.equal := rfl
@[simp] theorem setRunState_runState (r : RunState) (s : State) : (setRunState r s).runState = r := rfl
@[simp] theorem setRunState_fault (r : RunState) (s : State) : (setRunState r s).fault = s.fault := rfl
@[simp] theorem setRunState_out (r : RunState) (s : State) : (setRunState r s).out = s.out := rfl

@[simp] theorem setFault_mem (f : FaultRecord) (s : State) : (setFault f s).mem = s.mem := rfl
@[simp] theorem setFault_regs (f : FaultRecord) (s : State) : (setFault f s).regs = s.regs := rfl
@[simp] theorem setFault_pc (f : FaultRecord) (s : State) : (setFault f s).pc = s.pc := rfl
@[simp] theorem setFault_sp (f : FaultRecord) (s : State) : (setFault f s).sp = s.sp := rfl
@[simp] theorem setFault_equal (f : FaultRecord) (s : State) : (setFault f s).equal = s.equal := rfl
@[simp] theorem setFault_runState (f : FaultRecord) (s : State) : (setFault f s).runState = s.runState := rfl
@[simp] theorem setFault_fault (f : FaultRecord) (s : State) : (setFault f s).fault = f := rfl
@[simp] theorem setFault_out (f : FaultRecord) (s : State) : (setFault f s).out = s.out := rfl

@[simp] theorem emit_mem (v : Byte) (s : State) : (emit v s).mem = s.mem := rfl
@[simp] theorem emit_regs (v : Byte) (s : State) : (emit v s).regs = s.regs := rfl
@[simp] theorem emit_pc (v : Byte) (s : State) : (emit v s).pc = s.pc := rfl
@[simp] theorem emit_sp (v : Byte) (s : State) : (emit v s).sp = s.sp := rfl
@[simp] theorem emit_equal (v : Byte) (s : State) : (emit v s).equal = s.equal := rfl
@[simp] theorem emit_runState (v : Byte) (s : State) : (emit v s).runState = s.runState := rfl
@[simp] theorem emit_fault (v : Byte) (s : State) : (emit v s).fault = s.fault := rfl
@[simp] theorem emit_out (v : Byte) (s : State) : (emit v s).out = s.out ++ [v] := rfl

@[simp] theorem setReg_mem (i v : Byte) (s : State) : (setReg i v s).mem = s.mem := rfl
@[simp] theorem setReg_regs (i v : Byte) (s : State) : (setReg i v s).regs = s.regs.setIfInBounds i.toNat v := rfl
@[simp] theorem setReg_pc (i v : Byte) (s : State) : (setReg i v s).pc = s.pc := rfl
@[simp] theorem setReg_sp (i v : Byte) (s : State) : (setReg i v s).sp = s.sp := rfl
@[simp] theorem setReg_equal (i v : Byte) (s : State) : (setReg i v s).equal = s.equal := rfl
@[simp] theorem setReg_runState (i v : Byte) (s : State) : (setReg i v s).runState = s.runState := rfl
@[simp] theorem setReg_fault (i v : Byte) (s : State) : (setReg i v s).fault = s.fault := rfl
@[simp] theorem setReg_out (i v : Byte) (s : State) : (setReg i v s).out = s.out := rfl

/-! ### Registers -/

@[simp] theorem regVal_setMem (m : Memory) (s : State) (i : Byte) : regVal (setMem m s) i = regVal s i := rfl
@[simp] theorem regVal_setPc (p : Ptr) (s : State) (i : Byte) : regVal (setPc p s) i = regVal s i := rfl
@[simp] theorem regVal_setSp (p : Ptr) (s : State) (i : Byte) : regVal (setSp p s) i = regVal s i := rfl
@[simp] theorem regVal_setEqual (b : Bool) (s : State) (i : Byte) : regVal (setEqual b s) i = regVal s i := rfl
@[simp] theorem regVal_setRunState (r : RunState) (s : State) (i : Byte) : regVal (setRunState r s) i = regVal s i := rfl
@[simp] theorem regVal_setFault (f : FaultRecord) (s : State) (i : Byte) : regVal (setFault f s) i = regVal s i := rfl
@[simp] theorem regVal_emit (v : Byte) (s : State) (r : Byte) : regVal (emit v s) r = regVal s r := rfl

/-- Reading the register just written gives the value written. -/
theorem regVal_setReg_self (i v : Byte) (s : State) (h : i.toNat < 8) : regVal (setReg i v s) i = v := by
  simp [regVal, setReg, h]

/-- Writing one register leaves every other alone. -/
theorem regVal_setReg_ne (i v r : Byte) (s : State) (h : r ≠ i) : regVal (setReg i v s) r = regVal s r := by
  have hn : i.toNat ≠ r.toNat := fun e => h (BitVec.eq_of_toNat_eq e.symm)
  simp [regVal, setReg, Vector.getElem?_setIfInBounds_ne hn]

end Sys2Proof.Machine
end

