-- ==== Sys2Proof/Laws/Ops.lean ====
section
/-! SUPPORT. One lemma per shared operation that says once everything it can do; proofs cite these instead of
unfolding the operations. -/

namespace Sys2Proof.Machine

/-! ### Sub-steps -/

@[simp] theorem andThen_ok {α β : Type} (v : α) (s : State) (f : α → State → SubStep β) :
    andThen (.ok v s) f = f v s := rfl

@[simp] theorem andThen_raise {α β : Type} (c : Condition) (s : State) (f : α → State → SubStep β) :
    andThen (.raise c s) f = .raise c s := rfl

/-- A memory read answers the cell inside the 256 cells and raises outside, and changes nothing (rule R41). -/
theorem memRead_eq (a : Nat) (s : State) :
    memRead a s = if a < 256 then .ok (memByte s.mem a) s else .raise (memOutOfRange a) s := rfl

/-- A memory write puts the byte inside the 256 cells and raises, writing nothing, outside (rule R41). -/
theorem memWrite_eq (a : Nat) (v : Byte) (s : State) :
    memWrite a v s = if a < 256 then .ok () (setMem (memPut s.mem a v) s) else .raise (memOutOfRange a) s := rfl

/-- A register read answers the register 0 to 7 and raises above, and changes nothing (rule R13). -/
theorem readReg_eq (i : Byte) (s : State) :
    readReg i s = if i.toNat < 8 then .ok (regVal s i) s else .raise (regOutOfRange i) s := rfl

/-- A register write writes the register 0 to 7 and raises, writing nothing, above (rule R13). -/
theorem writeReg_eq (i v : Byte) (s : State) :
    writeReg i v s = if i.toNat < 8 then .ok () (setReg i v s) else .raise (regOutOfRange i) s := rfl

/-- A jump through a register sets `pc` to it, or raises for a number above 7 (rule R130). -/
theorem jumpToReg_eq (i : Byte) (s : State) :
    jumpToReg i s =
      if i.toNat < 8 then .ok (advanceBy 0) (setPc ((regVal s i).setWidth 9) s) else .raise (regOutOfRange i) s := by
  unfold jumpToReg
  rw [readReg_eq]
  split <;> rfl

/-- A push always decrements `sp`; then it raises for a register above 7, else writes the cell at the new `sp`, else
raises (rule R121). -/
theorem pushReg_eq (r : Byte) (s : State) :
    pushReg r s =
      if r.toNat < 8 then
        if (pushAddr s).toNat < 256 then
          .ok () (setMem (memPut s.mem (pushAddr s).toNat (regVal s r)) (setSp (pushAddr s) s))
        else .raise (memOutOfRange (pushAddr s).toNat) (setSp (pushAddr s) s)
      else .raise (regOutOfRange r) (setSp (pushAddr s) s) := by
  simp only [pushReg]
  rw [readReg_eq]
  split
  · rw [andThen_ok, memWrite_eq]
    simp only [setSp_sp, setSp_mem, regVal_setSp]
    rfl
  · rw [andThen_raise]

/-- A pop raises outside memory, then raises for a register above 7, and changes nothing in either case; else it
writes the register and increments `sp` (rule R122). -/
theorem popReg_eq (r : Byte) (s : State) :
    popReg r s =
      if s.sp.toNat < 256 then
        if r.toNat < 8 then .ok () (setSp (s.sp + 1) (setReg r (memByte s.mem s.sp.toNat) s))
        else .raise (regOutOfRange r) s
      else .raise (memOutOfRange s.sp.toNat) s := by
  unfold popReg
  rw [memRead_eq]
  split
  · rw [andThen_ok, writeReg_eq]
    split <;> rfl
  · rfl

/-- The pushed address as a number, in a state with something left to push onto. -/
theorem pushAddr_toNat (s : State) (h : 1 ≤ s.sp.toNat) : (pushAddr s).toNat = s.sp.toNat - 1 := by
  unfold pushAddr
  have := s.sp.isLt
  rw [BitVec.toNat_sub]
  simp
  omega

/-! ### Taking a fatal condition -/

section
variable (p : Ptr) (op : Option Byte) (c : Condition) (s : State)

@[simp] theorem takeFatal_runState : (takeFatal p op c s).runState = .faulted := rfl
@[simp] theorem takeFatal_fault : (takeFatal p op c s).fault = faultRecordOf p op c := rfl
@[simp] theorem takeFatal_mem : (takeFatal p op c s).mem = s.mem := rfl
@[simp] theorem takeFatal_regs : (takeFatal p op c s).regs = s.regs := rfl
@[simp] theorem takeFatal_pc : (takeFatal p op c s).pc = s.pc := rfl
@[simp] theorem takeFatal_sp : (takeFatal p op c s).sp = s.sp := rfl
@[simp] theorem takeFatal_equal : (takeFatal p op c s).equal = s.equal := rfl
@[simp] theorem takeFatal_out : (takeFatal p op c s).out = s.out := rfl
@[simp] theorem regVal_takeFatal (r : Byte) : regVal (takeFatal p op c s) r = regVal s r := rfl

end

/-! ### The end of a cycle -/

/-- A raise ends the cycle in the FAULTED state of its condition (rule R88). -/
@[simp] theorem endCycle_raise (p : Ptr) (op : Byte) (c : Condition) (s : State) :
    endCycle p op (.raise c s) = takeFatal p (some op) c s := rfl

/-- A handler that lets the machine run has its `advance` added to `pc` (rule R86). -/
@[simp] theorem endCycle_advance (p : Ptr) (op : Byte) (n : Nat) (s : State) :
    endCycle p op (.ok (advanceBy n) s) = setPc (s.pc + BitVec.ofNat 9 n) s := rfl

/-- The halt leaves `pc` alone (rule R87). -/
@[simp] theorem endCycle_stop (p : Ptr) (op : Byte) (s : State) :
    endCycle p op (.ok stopRunning s) = setRunState .halted s := rfl

/-- Whatever a handler does, its cycle ends in a next state. -/
theorem runHandler_eq (h : Handler) (f : State → SubStep HandlerResult) (s : State) :
    runHandler h f s = .next (endCycle s.pc (opcodeByte h) (f s)) := rfl

/-! ### Fetch -/

@[simp] theorem fetchedOf_instr (i : Instr) : fetchedOf (.instr i) = .instr i := rfl

@[simp] theorem fetchedOf_unknownOpcode (op : Byte) :
    fetchedOf (.unknownOpcode op) = .raise (some op) (.unknownOpcode op) := rfl

/-- Inside memory the fetch decodes the three bytes at `pc` (rules R81, R84). -/
theorem fetchDecode_eq (s : State) (h : s.pc.toNat ≤ 253) :
    fetchDecode s =
      fetchedOf (decodeWindow (memByte s.mem s.pc.toNat) (memByte s.mem (s.pc.toNat + 1))
        (memByte s.mem (s.pc.toNat + 2))) := by
  have h0 : s.pc.toNat < 256 := by omega
  have h1 : s.pc.toNat + 1 < 256 := by omega
  have h2 : s.pc.toNat + 2 < 256 := by omega
  unfold fetchDecode
  simp only [memRead_eq, h0, h1, h2, if_true]

/-- At 254 and 255 the opcode byte is fetched and an operand byte is not (rule R83). -/
theorem fetchDecode_top (s : State) (h : 254 ≤ s.pc.toNat) (h' : s.pc.toNat ≤ 255) :
    fetchDecode s = .raise (some (memByte s.mem s.pc.toNat)) (memOutOfRange 256) := by
  unfold fetchDecode
  simp only [memRead_eq]
  rw [if_pos (by omega)]
  by_cases hp : s.pc.toNat = 255
  · rw [if_neg (by omega), hp]
  · have : s.pc.toNat = 254 := by omega
    rw [if_pos (by omega), if_neg (by omega), this]

/-- From 256 on the opcode byte itself is not fetched (rule R83). -/
theorem fetchDecode_beyond (s : State) (h : 256 ≤ s.pc.toNat) :
    fetchDecode s = .raise none (memOutOfRange s.pc.toNat) := by
  unfold fetchDecode
  simp only [memRead_eq]
  rw [if_neg (by omega)]

/-- A RUNNING machine runs the instruction it fetched (rule R81). -/
theorem step_of_instr (s : State) (i : Instr) (h : s.runState = .running) (hf : fetchDecode s = .instr i) :
    step s = exec i s := by
  unfold step stopped
  rw [h, hf]

/-- A RUNNING machine takes the fatal condition its fetch or lookup raised (rules R83, R84). -/
theorem step_of_raise (s : State) (op : Option Byte) (c : Condition) (h : s.runState = .running)
    (hf : fetchDecode s = .raise op c) : step s = .next (takeFatal s.pc op c s) := by
  unfold step stopped
  rw [h, hf]

/-- A step that answers a next state ran an instruction or took a fatal condition, in a RUNNING machine. -/
theorem step_next (s t : State) (h : step s = .next t) :
    s.runState = .running ∧
      ((∃ i, fetchDecode s = .instr i ∧ exec i s = .next t) ∨
        ∃ op c, fetchDecode s = .raise op c ∧ t = takeFatal s.pc op c s) := by
  unfold step stopped at h
  cases hr : s.runState with
  | halted => rw [hr] at h; cases h
  | faulted => rw [hr] at h; cases h
  | running =>
    refine ⟨rfl, ?_⟩
    rw [hr] at h
    cases hf : fetchDecode s with
    | instr i => exact .inl ⟨i, rfl, by rw [hf] at h; exact h⟩
    | raise op c =>
      rw [hf] at h
      injection h with h
      exact .inr ⟨op, c, rfl, h.symm⟩

/-- Every case of a step (rules R81, R90). -/
theorem step_eq (s : State) :
    step s =
      match s.runState with
      | .running =>
        match fetchDecode s with
        | .instr i => exec i s
        | .raise op c => .next (takeFatal s.pc op c s)
      | .halted => .fault .machineHalted
      | .faulted => .fault .machineFaulted := by
  unfold step stopped
  cases s.runState <;> rfl

end Sys2Proof.Machine
end

