-- ==== Sys2Proof/Laws/Exec.lean ====
section
/-! SUPPORT. One lemma per instruction: everything `exec` can answer for it, as one next state in normal form. Frames,
results and invariants follow from these without unfolding a meaning. -/

namespace Sys2Proof.Machine

/-- The handler the dispatch table selects for an instruction (rule R91). -/
def handlerStep : Instr → State → SubStep HandlerResult
  | .hlt, s => hltHandler s
  | .ldi a b, s => ldiHandler a b s
  | .prn a, s => prnHandler a s
  | .add a b, s => aluHandler .add a b s
  | .mul a b, s => aluHandler .mul a b s
  | .cmp a b, s => aluHandler .cmp a b s
  | .push a, s => pushHandler a s
  | .pop a, s => popHandler a s
  | .call a, s => callHandler a s
  | .ret, s => retHandler s
  | .jmp a, s => jmpHandler a s
  | .jeq a, s => condJump (jeqTaken s) a s
  | .jne a, s => condJump (jneTaken s) a s

/-- `exec` runs the selected handler and ends its cycle; it never answers a fault or a refusal. -/
theorem exec_eq (i : Instr) (s : State) :
    exec i s = .next (endCycle s.pc (opcodeByte (handlerOf i)) (handlerStep i s)) := by
  cases i <;> rfl

/-- HLT (rule R100). -/
theorem exec_hlt (s : State) : exec .hlt s = .next (setRunState .halted s) := rfl

/-- LDI (rule R101). -/
theorem exec_ldi (a b : Byte) (s : State) :
    exec (.ldi a b) s = .next (
      if a.toNat < 8 then setPc (s.pc + 3) (setReg a b s) else takeFatal s.pc (some 0x82) (regOutOfRange a) s) := by
  rw [exec_eq]
  simp only [handlerStep, ldiHandler]
  rw [writeReg_eq]
  split <;> rfl

/-- PRN (rule R102). -/
theorem exec_prn (a : Byte) (s : State) :
    exec (.prn a) s = .next (
      if a.toNat < 8 then setPc (s.pc + 2) (emit (regVal s a) s)
      else takeFatal s.pc (some 0x47) (regOutOfRange a) s) := by
  rw [exec_eq]
  simp only [handlerStep, prnHandler]
  rw [readReg_eq]
  split <;> rfl

/-- The state after the write-back of an ALU output, once `x[a]` was read (rule R110). -/
def aluState (a : Byte) (s : State) : AluOut → State
  | .result v => setReg a v s
  | .eq e => setEqual e s

/-- The write-back cannot raise for a register that was read. -/
theorem aluWriteBack_eq (a : Byte) (o : AluOut) (s : State) (h : a.toNat < 8) :
    aluWriteBack a o s = .ok () (aluState a s o) := by
  cases o with
  | result v =>
    change writeReg a v s = _
    rw [writeReg_eq, if_pos h]
    rfl
  | eq e => rfl

/-- What the ALU handler does: both reads, then the write-back, which cannot raise once `x[a]` was read. -/
theorem aluHandler_eq (op : AluOp) (a b : Byte) (s : State) :
    aluHandler op a b s =
      if a.toNat < 8 then
        if b.toNat < 8 then
          .ok (advanceBy 3) (aluState a s (alu op (regVal s a) (regVal s b)))
        else .raise (regOutOfRange b) s
      else .raise (regOutOfRange a) s := by
  unfold aluHandler
  rw [readReg_eq]
  split
  · rename_i ha
    rw [andThen_ok, readReg_eq]
    split
    · rw [andThen_ok, aluWriteBack_eq a _ s ha, andThen_ok]
    · rfl
  · rfl

/-- ADD (rule R111). -/
theorem exec_add (a b : Byte) (s : State) :
    exec (.add a b) s = .next (
      if a.toNat < 8 then
        if b.toNat < 8 then
          setPc (s.pc + 3) (setReg a (BitVec.ofNat 8 (((regVal s a).toNat + (regVal s b).toNat) % 256)) s)
        else takeFatal s.pc (some 0xA0) (regOutOfRange b) s
      else takeFatal s.pc (some 0xA0) (regOutOfRange a) s) := by
  rw [exec_eq]
  simp only [handlerStep]
  rw [aluHandler_eq]
  split
  · split <;> rfl
  · rfl

/-- MUL (rule R112). -/
theorem exec_mul (a b : Byte) (s : State) :
    exec (.mul a b) s = .next (
      if a.toNat < 8 then
        if b.toNat < 8 then
          setPc (s.pc + 3) (setReg a (BitVec.ofNat 8 (((regVal s a).toNat * (regVal s b).toNat) % 256)) s)
        else takeFatal s.pc (some 0xA2) (regOutOfRange b) s
      else takeFatal s.pc (some 0xA2) (regOutOfRange a) s) := by
  rw [exec_eq]
  simp only [handlerStep]
  rw [aluHandler_eq]
  split
  · split <;> rfl
  · rfl

/-- CMP (rule R113). -/
theorem exec_cmp (a b : Byte) (s : State) :
    exec (.cmp a b) s = .next (
      if a.toNat < 8 then
        if b.toNat < 8 then setPc (s.pc + 3) (setEqual (equalFlag (regVal s a) (regVal s b)) s)
        else takeFatal s.pc (some 0xA7) (regOutOfRange b) s
      else takeFatal s.pc (some 0xA7) (regOutOfRange a) s) := by
  rw [exec_eq]
  simp only [handlerStep]
  rw [aluHandler_eq]
  split
  · split <;> rfl
  · rfl

/-- PUSH (rule R121). -/
theorem exec_push (a : Byte) (s : State) :
    exec (.push a) s = .next (
      if a.toNat < 8 then
        if (pushAddr s).toNat < 256 then
          setPc (s.pc + 2) (setMem (memPut s.mem (pushAddr s).toNat (regVal s a)) (setSp (pushAddr s) s))
        else takeFatal s.pc (some 0x45) (memOutOfRange (pushAddr s).toNat) (setSp (pushAddr s) s)
      else takeFatal s.pc (some 0x45) (regOutOfRange a) (setSp (pushAddr s) s)) := by
  rw [exec_eq]
  simp only [handlerStep, pushHandler]
  rw [pushReg_eq]
  split
  · split <;> rfl
  · rfl

/-- POP (rule R122). -/
theorem exec_pop (a : Byte) (s : State) :
    exec (.pop a) s = .next (
      if s.sp.toNat < 256 then
        if a.toNat < 8 then setPc (s.pc + 2) (setSp (s.sp + 1) (setReg a (memByte s.mem s.sp.toNat) s))
        else takeFatal s.pc (some 0x46) (regOutOfRange a) s
      else takeFatal s.pc (some 0x46) (memOutOfRange s.sp.toNat) s) := by
  rw [exec_eq]
  simp only [handlerStep, popHandler]
  rw [popReg_eq]
  split
  · split <;> rfl
  · rfl

/-- A jump that did not fault leaves `pc` at the register's value: the run loop adds 0. -/
theorem endCycle_jumpToReg (p : Ptr) (op i : Byte) (s : State) :
    endCycle p op (jumpToReg i s) =
      if i.toNat < 8 then setPc ((regVal s i).setWidth 9) s else takeFatal p (some op) (regOutOfRange i) s := by
  rw [jumpToReg_eq]
  split
  · simp only [endCycle_advance, setPc, BitVec.add_zero]
  · rfl

/-- The state after CALL has written the scratch register. -/
def linked (s : State) : State := setReg Config.scratch (returnAddress s) s

/-- The state after CALL has pushed the return address. -/
def called (s : State) : State :=
  setMem (memPut s.mem (pushAddr s).toNat (returnAddress s)) (setSp (pushAddr s) (linked s))

/-! ### Fields of `linked s` -/

@[simp] theorem linked_mem (s : State) : (linked s).mem = s.mem := rfl
@[simp] theorem linked_pc (s : State) : (linked s).pc = s.pc := rfl
@[simp] theorem linked_sp (s : State) : (linked s).sp = s.sp := rfl
@[simp] theorem linked_equal (s : State) : (linked s).equal = s.equal := rfl
@[simp] theorem linked_runState (s : State) : (linked s).runState = s.runState := rfl
@[simp] theorem linked_fault (s : State) : (linked s).fault = s.fault := rfl
@[simp] theorem linked_out (s : State) : (linked s).out = s.out := rfl
theorem regVal_linked_scratch (s : State) : regVal (linked s) Config.scratch = returnAddress s :=
  regVal_setReg_self _ _ _ (by decide)
theorem regVal_linked_ne (s : State) (r : Byte) (h : r ≠ Config.scratch) : regVal (linked s) r = regVal s r :=
  regVal_setReg_ne _ _ _ _ h

/-! ### Fields of `called s` -/

@[simp] theorem called_mem (s : State) : (called s).mem = memPut s.mem (pushAddr s).toNat (returnAddress s) := rfl
@[simp] theorem called_pc (s : State) : (called s).pc = s.pc := rfl
@[simp] theorem called_sp (s : State) : (called s).sp = pushAddr s := rfl
@[simp] theorem called_equal (s : State) : (called s).equal = s.equal := rfl
@[simp] theorem called_runState (s : State) : (called s).runState = s.runState := rfl
@[simp] theorem called_fault (s : State) : (called s).fault = s.fault := rfl
@[simp] theorem called_out (s : State) : (called s).out = s.out := rfl
theorem regVal_called_scratch (s : State) : regVal (called s) Config.scratch = returnAddress s :=
  regVal_setReg_self _ _ _ (by decide)
theorem regVal_called_ne (s : State) (r : Byte) (h : r ≠ Config.scratch) : regVal (called s) r = regVal s r :=
  regVal_setReg_ne _ _ _ _ h

/-- A CALL that was fetched has a return address that fits a register (rule R131). -/
theorem returnAddress_toNat (s : State) (h : s.pc.toNat ≤ 253) : (returnAddress s).toNat = s.pc.toNat + 2 := by
  unfold returnAddress
  simp [BitVec.toNat_add]
  omega

/-- CALL (rule R131). -/
theorem exec_call (a : Byte) (s : State) :
    exec (.call a) s = .next (
      if (pushAddr s).toNat < 256 then
        if a.toNat < 8 then setPc ((regVal (called s) a).setWidth 9) (called s)
        else takeFatal s.pc (some 0x50) (regOutOfRange a) (called s)
      else takeFatal s.pc (some 0x50) (memOutOfRange (pushAddr s).toNat) (setSp (pushAddr s) (linked s))) := by
  have hl : regVal (linked s) Config.scratch = returnAddress s := regVal_setReg_self _ _ _ (by decide)
  have hp : pushAddr (linked s) = pushAddr s := rfl
  have hm : (linked s).mem = s.mem := rfl
  rw [exec_eq]
  simp only [handlerStep, callHandler]
  rw [writeReg_eq, if_pos (by decide), andThen_ok]
  change Host.Outcome.next (endCycle s.pc _ (andThen (pushReg Config.scratch (linked s)) _)) = _
  rw [pushReg_eq, if_pos (by decide), hp, hl, hm]
  split
  · rw [andThen_ok]
    exact congrArg _ (endCycle_jumpToReg _ _ _ _)
  · rfl

/-- The state after RET has popped into the scratch register. -/
def returned (s : State) : State := setSp (s.sp + 1) (setReg Config.scratch (memByte s.mem s.sp.toNat) s)

/-! ### Fields of `returned s` -/

@[simp] theorem returned_mem (s : State) : (returned s).mem = s.mem := rfl
@[simp] theorem returned_pc (s : State) : (returned s).pc = s.pc := rfl
@[simp] theorem returned_sp (s : State) : (returned s).sp = s.sp + 1 := rfl
@[simp] theorem returned_equal (s : State) : (returned s).equal = s.equal := rfl
@[simp] theorem returned_runState (s : State) : (returned s).runState = s.runState := rfl
@[simp] theorem returned_fault (s : State) : (returned s).fault = s.fault := rfl
@[simp] theorem returned_out (s : State) : (returned s).out = s.out := rfl
theorem regVal_returned_scratch (s : State) : regVal (returned s) Config.scratch = memByte s.mem s.sp.toNat :=
  regVal_setReg_self _ _ _ (by decide)
theorem regVal_returned_ne (s : State) (r : Byte) (h : r ≠ Config.scratch) : regVal (returned s) r = regVal s r :=
  regVal_setReg_ne _ _ _ _ h

/-- RET (rule R132). -/
theorem exec_ret (s : State) :
    exec .ret s = .next (
      if s.sp.toNat < 256 then setPc ((memByte s.mem s.sp.toNat).setWidth 9) (returned s)
      else takeFatal s.pc (some 0x11) (memOutOfRange s.sp.toNat) s) := by
  have hl : regVal (returned s) Config.scratch = memByte s.mem s.sp.toNat := regVal_setReg_self _ _ _ (by decide)
  rw [exec_eq]
  simp only [handlerStep, retHandler]
  rw [popReg_eq]
  split
  · rw [if_pos (by decide), andThen_ok]
    change Host.Outcome.next (endCycle s.pc _ (jumpToReg Config.scratch (returned s))) = _
    rw [endCycle_jumpToReg, if_pos (by decide), hl]
  · rfl

/-- JMP (rule R133). -/
theorem exec_jmp (a : Byte) (s : State) :
    exec (.jmp a) s = .next (
      if a.toNat < 8 then setPc ((regVal s a).setWidth 9) s
      else takeFatal s.pc (some 0x54) (regOutOfRange a) s) := by
  rw [exec_eq]
  exact congrArg _ (endCycle_jumpToReg _ _ _ _)

/-- A taken conditional jump is a jump through the register (rules R134, R135). -/
theorem condJump_taken (a : Byte) (s : State) : condJump true a s = jumpToReg a s := rfl

/-- A conditional jump not taken advances by 2 and reads no register (rule R137). -/
theorem condJump_not_taken (a : Byte) (s : State) : condJump false a s = .ok (advanceBy 2) s := rfl

/-- JEQ (rule R134). -/
theorem exec_jeq (a : Byte) (s : State) :
    exec (.jeq a) s = .next (
      if s.equal = true then
        if a.toNat < 8 then setPc ((regVal s a).setWidth 9) s
        else takeFatal s.pc (some 0x55) (regOutOfRange a) s
      else setPc (s.pc + 2) s) := by
  rw [exec_eq]
  simp only [handlerStep]
  by_cases h : s.equal = true
  · have ht : jeqTaken s = true := h
    rw [if_pos h, ht, condJump_taken]
    exact congrArg _ (endCycle_jumpToReg _ _ _ _)
  · have ht : jeqTaken s = false := Bool.eq_false_iff.2 h
    rw [if_neg h, ht, condJump_not_taken]
    rfl

/-- JNE (rule R135). -/
theorem exec_jne (a : Byte) (s : State) :
    exec (.jne a) s = .next (
      if s.equal = true then setPc (s.pc + 2) s
      else
        if a.toNat < 8 then setPc ((regVal s a).setWidth 9) s
        else takeFatal s.pc (some 0x56) (regOutOfRange a) s) := by
  rw [exec_eq]
  simp only [handlerStep]
  by_cases h : s.equal = true
  · have ht : jneTaken s = false := by unfold jneTaken; rw [h]; rfl
    rw [if_pos h, ht, condJump_not_taken]
    rfl
  · have ht : jneTaken s = true := by unfold jneTaken; rw [Bool.eq_false_iff.2 h]; rfl
    rw [if_neg h, ht, condJump_taken]
    exact congrArg _ (endCycle_jumpToReg _ _ _ _)

end Sys2Proof.Machine
end

