-- ==== Sys2Proof/Laws/PerInstr.lean ====
section
/-! SUPPORT. Statements made per instruction (LAWS.json). `EncodingShape`: an instruction's encoding starts with its
opcode byte and is as long as its format says (30_encoding.md rules R60, R61, R66). -/

namespace Sys2Proof.Laws.EncodingShape

/-- The encoding of `i` is its opcode byte followed by its operand bytes, in all `instrLength i` of them. -/
def Statement (i : Instr) : Prop :=
  (encode i).head? = some (opcodeByte (handlerOf i)) ∧ (encode i).length = instrLength i

theorem hlt : Statement .hlt := ⟨rfl, rfl⟩
theorem ldi (a b : Byte) : Statement (.ldi a b) := ⟨rfl, rfl⟩
theorem prn (a : Byte) : Statement (.prn a) := ⟨rfl, rfl⟩
theorem add (a b : Byte) : Statement (.add a b) := ⟨rfl, rfl⟩
theorem mul (a b : Byte) : Statement (.mul a b) := ⟨rfl, rfl⟩
theorem cmp (a b : Byte) : Statement (.cmp a b) := ⟨rfl, rfl⟩
theorem push (a : Byte) : Statement (.push a) := ⟨rfl, rfl⟩
theorem pop (a : Byte) : Statement (.pop a) := ⟨rfl, rfl⟩
theorem call (a : Byte) : Statement (.call a) := ⟨rfl, rfl⟩
theorem ret : Statement .ret := ⟨rfl, rfl⟩
theorem jmp (a : Byte) : Statement (.jmp a) := ⟨rfl, rfl⟩
theorem jeq (a : Byte) : Statement (.jeq a) := ⟨rfl, rfl⟩
theorem jne (a : Byte) : Statement (.jne a) := ⟨rfl, rfl⟩

end Sys2Proof.Laws.EncodingShape
end

