-- ==== Sys2Proof/Tests/Slice0.lean ====
section
/-! SUPPORT. Tests. Expected results come from the spec: the encodings of 30_encoding.md rule R63 and the vectors of
95_test_vectors.md, named by their ids. The witnesses at the end show that the hypotheses of the statements in
Certificates/Slice0/Obligations.lean can be met together, each clause at a boundary of its range. -/

namespace Sys2Proof.Tests

open Sys2Proof.Machine

/-! ### Helpers -/

/-- The reset state with `bs` loaded at address 0 (rule R182). -/
def image (bs : List Byte) : State := boot (imageAt 0 bs)

/-- The reset state with `bs` loaded at `a` and `pc` there. -/
def imageFrom (a : Nat) (bs : List Byte) : State := setPc (BitVec.ofNat 9 a) (load (imageAt a bs) State.reset)

/-- The next state of an outcome; the reset state where there is none. -/
def nextOf (o : Host.Outcome State Fault Refusal) : State :=
  match o with
  | .next t => t
  | _ => State.reset

/-- The state after one cycle. -/
def after (s : State) : State := nextOf (step s)

/-- What the host sees of a fault: run state, cause, kind and value of `fault_info`, `pc`. -/
def faultOf (t : State) : RunState × FaultCause × Option AccessKind × Nat × Nat :=
  (t.runState, t.fault.cause, t.fault.infoKind, t.fault.infoValue.toNat, t.pc.toNat)

/-! ### Well-formedness: an ill-formed term for each register operand, which the check refuses -/

theorem test_illformed_ldi : Instr.wellFormed (.ldi 8 0) = false := by decide
theorem test_illformed_prn : Instr.wellFormed (.prn 8) = false := by decide
theorem test_illformed_add_a : Instr.wellFormed (.add 8 0) = false := by decide
theorem test_illformed_add_b : Instr.wellFormed (.add 0 8) = false := by decide
theorem test_illformed_mul_a : Instr.wellFormed (.mul 255 0) = false := by decide
theorem test_illformed_mul_b : Instr.wellFormed (.mul 0 255) = false := by decide
theorem test_illformed_cmp_a : Instr.wellFormed (.cmp 8 7) = false := by decide
theorem test_illformed_cmp_b : Instr.wellFormed (.cmp 7 8) = false := by decide
theorem test_illformed_push : Instr.wellFormed (.push 9) = false := by decide
theorem test_illformed_pop : Instr.wellFormed (.pop 9) = false := by decide
theorem test_illformed_call : Instr.wellFormed (.call 9) = false := by decide
theorem test_illformed_jmp : Instr.wellFormed (.jmp 8) = false := by decide
theorem test_illformed_jeq : Instr.wellFormed (.jeq 200) = false := by decide
theorem test_illformed_jne : Instr.wellFormed (.jne 200) = false := by decide
/-- LDI's `b` is an immediate, never a register number (rule R101). -/
theorem test_wellformed_ldi_immediate : Instr.wellFormed (.ldi 7 255) = true := by decide

/-! ### Decoding, each word written out in bits from rule R63 -/

theorem test_decode_hlt : decodeWindow 0b00000001 0b11111111 0b11111111 = .instr .hlt := by decide
theorem test_decode_ldi : decodeWindow 0b10000010 0b00000011 0b01111111 = .instr (.ldi 3 127) := by decide
theorem test_decode_prn : decodeWindow 0b01000111 0b00000101 0b00000000 = .instr (.prn 5) := by decide
theorem test_decode_add : decodeWindow 0b10100000 0b00000010 0b00000001 = .instr (.add 2 1) := by decide
theorem test_decode_mul : decodeWindow 0b10100010 0b00000100 0b00000110 = .instr (.mul 4 6) := by decide
theorem test_decode_cmp : decodeWindow 0b10100111 0b00000000 0b00000010 = .instr (.cmp 0 2) := by decide
theorem test_decode_push : decodeWindow 0b01000101 0b00000111 0b00000000 = .instr (.push 7) := by decide
theorem test_decode_pop : decodeWindow 0b01000110 0b00000011 0b00000000 = .instr (.pop 3) := by decide
theorem test_decode_call : decodeWindow 0b01010000 0b00000001 0b00000000 = .instr (.call 1) := by decide
theorem test_decode_ret : decodeWindow 0b00010001 0b10101010 0b01010101 = .instr .ret := by decide
theorem test_decode_jmp : decodeWindow 0b01010100 0b00000001 0b00000000 = .instr (.jmp 1) := by decide
theorem test_decode_jeq : decodeWindow 0b01010101 0b11001000 0b00000000 = .instr (.jeq 200) := by decide
theorem test_decode_jne : decodeWindow 0b01010110 0b00000011 0b00000000 = .instr (.jne 3) := by decide
/-- V15: the top bits of an ALU instruction do not make an opcode. -/
theorem test_decode_unknown : decodeWindow 0b10100001 0 1 = .unknownOpcode 0xA1 := by decide
/-- The second and third byte of a table word are bits 15..8 and 23..16. -/
theorem test_decode_table_word : decodeTableWord 24 0x0900A0 = some (.add 0 9) := by decide
/-- Bits above `nbits` are 0. -/
theorem test_decode_table_word_short : decodeTableWord 8 0xFF82 = some (.ldi 0 0) := by decide
/-- Rule R71's own example. -/
theorem test_assembly_text : assemblyText (.ldi 0 8) = some "LDI R0, 8" := by decide

/-! ### One cycle of each instruction, vectors of 95_test_vectors.md -/

/-- V8. -/
theorem test_hlt_at_253 : ((after (imageFrom 253 [0x01])).runState, (after (imageFrom 253 [0x01])).pc) = (.halted, 253) := by
  decide
/-- V9: HLT does not halt at 254. -/
theorem test_hlt_at_254 :
    faultOf (after (imageFrom 254 [0x01])) = (.faulted, .outOfRangeAddress, some .mem, 256, 254) := by decide
/-- V1. -/
theorem test_ldi : (regVal (after (image [0x82, 3, 0x7F])) 3, (after (image [0x82, 3, 0x7F])).pc) = (127, 3) := by decide
/-- V3. -/
theorem test_ldi_bad_register :
    faultOf (after (image [0x82, 8, 1])) = (.faulted, .outOfRangeAddress, some .reg, 8, 0) := by decide
/-- V5. -/
theorem test_prn : (after (setReg 5 255 (image [0x47, 5]))).out = [255] := by decide
/-- V6. -/
theorem test_prn_bad_register :
    faultOf (after (image [0x47, 0x10])) = (.faulted, .outOfRangeAddress, some .reg, 16, 0) := by decide
/-- A2: the sum wraps. -/
theorem test_add_wraps : regVal (after (setReg 0 200 (setReg 1 100 (image [0xA0, 0, 1])))) 0 = 44 := by decide
/-- A6: operand A is checked first. -/
theorem test_add_operand_a_first :
    faultOf (after (image [0xA0, 9, 10])) = (.faulted, .outOfRangeAddress, some .reg, 9, 0) := by decide
/-- A9: the low 8 bits of 65025. -/
theorem test_mul_wraps : regVal (after (setReg 0 255 (setReg 1 255 (image [0xA2, 0, 1])))) 0 = 1 := by decide
/-- A10: the same register twice. -/
theorem test_mul_square : regVal (after (setReg 4 12 (image [0xA2, 4, 4]))) 4 = 144 := by decide
/-- A13: CMP clears as well as sets. -/
theorem test_cmp_clears :
    (after (setEqual true (setReg 0 3 (setReg 2 4 (image [0xA7, 0, 2]))))).equal = false := by decide
/-- A12. -/
theorem test_cmp_sets : (after (setReg 0 3 (setReg 2 3 (image [0xA7, 0, 2])))).equal = true := by decide
/-- K2: no fault when the PUSH's own opcode byte is overwritten. -/
theorem test_push_onto_program :
    let t := after (setSp 1 (setReg 0 0x99 (image [0x45, 0])))
    (t.sp, memByte t.mem 0, t.pc) = (0, 0x99, 2) := by decide
/-- K3: 511 is left in `sp`. -/
theorem test_push_below_zero :
    let t := after (setSp 0 (image [0x45, 0]))
    (faultOf t, t.sp) = ((.faulted, .outOfRangeAddress, some .mem, 511, 0), 511) := by decide
/-- K10: the POP's own opcode byte is popped. -/
theorem test_pop_at_zero :
    let t := after (setSp 0 (image [0x46, 1]))
    (regVal t 1, t.sp, t.pc) = (70, 1, 2) := by decide
/-- K9: the cell is read before the register is written. -/
theorem test_pop_empty :
    faultOf (after (image [0x46, 9])) = (.faulted, .outOfRangeAddress, some .mem, 256, 0) := by decide
/-- J12: CALL R2 goes to its own return address. -/
theorem test_call_r2 :
    let t := after (setReg 2 0x40 (imageFrom 3 [0x50, 2]))
    (regVal t 2, t.sp, memByte t.mem 255, t.pc) = (5, 255, 5, 5) := by decide
/-- J14: everything but the jump was done. -/
theorem test_call_bad_target :
    let t := after (image [0x50, 9])
    (faultOf t, regVal t 2, t.sp, memByte t.mem 255) =
      ((.faulted, .outOfRangeAddress, some .reg, 9, 0), 2, 255, 2) := by decide
/-- J16. -/
theorem test_ret :
    let t := after (setSp 255 (loadByte (255, 8) (imageFrom 14 [0x11])))
    (regVal t 2, t.sp, t.pc) = (8, 256, 8) := by decide
/-- J17. -/
theorem test_ret_empty : faultOf (after (image [0x11])) = (.faulted, .outOfRangeAddress, some .mem, 256, 0) := by decide
/-- J1. -/
theorem test_jmp : (after (setReg 1 32 (image [0x54, 1]))).pc = 32 := by decide
/-- J2. -/
theorem test_jmp_bad_register :
    faultOf (after (image [0x54, 8])) = (.faulted, .outOfRangeAddress, some .reg, 8, 0) := by decide
/-- J3, taken. -/
theorem test_jeq_taken : (after (setEqual true (setReg 3 12 (imageFrom 20 [0x55, 3])))).pc = 12 := by decide
/-- J7: not taken, register 200 is never read. -/
theorem test_jeq_not_taken :
    let t := after (image [0x55, 0xC8])
    (t.runState, t.pc) = (.running, 2) := by decide
/-- J5, taken. -/
theorem test_jne_taken : (after (setReg 3 12 (imageFrom 20 [0x56, 3]))).pc = 12 := by decide
/-- J6, not taken: the advance is 2. -/
theorem test_jne_not_taken : (after (setEqual true (setReg 3 12 (imageFrom 20 [0x56, 3])))).pc = 22 := by decide

/-! ### The cycle -/

/-- V11: at 256 the opcode byte itself is not fetched. -/
theorem test_fetch_at_256 :
    let t := after (setPc 256 State.reset)
    (faultOf t, t.fault.opcodeValid) = ((.faulted, .outOfRangeAddress, some .mem, 256, 256), false) := by decide
/-- V12: the fetch fails before the lookup. -/
theorem test_fetch_before_lookup :
    let t := after (imageFrom 254 [0xFF])
    (t.fault.cause, t.fault.opcodeValid, t.fault.opcode) = (.outOfRangeAddress, true, 0xFF) := by decide
/-- V13: no program loaded. -/
theorem test_no_program : faultOf (after State.reset) = (.faulted, .unknownOpcode, none, 0, 0) := by decide
/-- F4, its third cycle: `pc` reaches 256 and does not wrap. -/
theorem test_pc_reaches_256 : (after (imageFrom 253 [0x82, 1, 7])).pc = 256 := by decide
/-- Rule R187: HALTED has no successor. -/
theorem test_halted_stops : step (setRunState .halted State.reset) = .fault .machineHalted := rfl
/-- A table word placed at reset is what the next step runs. -/
theorem test_fetch_word : regVal (after (State.reset.withFetchWord 24 0x2A0482)) 4 = 42 := by decide

/-! ### Witnesses: the hypotheses of each statement are met, each clause at a boundary of its range -/

/-- The lowest and the highest address at which an instruction executes. -/
theorem witness_canExecute : CanExecute State.reset ∧ CanExecute (setPc 253 State.reset) := by decide

theorem witness_DecodedWindowStartsWithTheEncoding :
    decodeWindow 0x82 7 255 = .instr (.ldi 7 255) ∧ decodeWindow 0x56 255 0 = .instr (.jne 255) := by decide

theorem witness_UnusedWindowBytesAreIgnored :
    (decodeWindow 0x11 1 2 = .instr .ret ∧ instrLength .ret = 1) ∧
      (decodeWindow 0x45 1 2 = .instr (.push 1) ∧ instrLength (.push 1) = 2) := by decide

theorem witness_StepRunsTheDecodedInstruction :
    CanExecute (imageFrom 253 [0x01]) ∧
      decodeWindow (memByte (imageFrom 253 [0x01]).mem 253) (memByte (imageFrom 253 [0x01]).mem 254)
        (memByte (imageFrom 253 [0x01]).mem 255) = .instr .hlt := by decide

/-- `pc` 254, 255 and 256. -/
theorem witness_FetchBeyondMemoryFaults :
    ∀ p ∈ ([254, 255, 256] : List Ptr),
      (setPc p State.reset).runState = .running ∧ 254 ≤ (setPc p State.reset).pc.toNat ∧
        (setPc p State.reset).pc.toNat ≤ 256 := by decide

theorem witness_UnknownOpcodeFaults :
    CanExecute (image [0xFF]) ∧
      memByte (image [0xFF]).mem (image [0xFF]).pc.toNat ∉
        ([0x01, 0x11, 0x45, 0x46, 0x47, 0x50, 0x54, 0x55, 0x56, 0x82, 0xA0, 0xA2, 0xA7] : List Byte) := by decide

theorem witness_StoppedMachineHasNoSuccessor :
    (setRunState .halted State.reset).runState = .halted ∧ (setRunState .faulted State.reset).runState = .faulted := by
  decide

theorem witness_RunningStepAnswersANextState : State.reset.runState = .running := rfl

theorem witness_reset_inv : Inv State.reset := by constructor <;> decide

theorem witness_StepKeepsTheInvariant : ∃ t, Inv State.reset ∧ step State.reset = .next t :=
  ⟨_, witness_reset_inv, rfl⟩

/-- The invariant holds also where memory lists entries; from there a step advances from 253, the top, to 256. -/
theorem witness_PcNeverWraps :
    let s := imageFrom 253 [0x82, 1, 7]
    ∃ t, Inv s ∧ step s = .next t ∧ t.runState ≠ .faulted ∧ fetchDecode s = .instr (.ldi 1 7) ∧
      setsPc (.ldi 1 7) s = false ∧ t.runState = .running :=
  ⟨_, by constructor <;> decide, rfl, by decide, by decide, by decide, by decide⟩

/-- A cycle that halts and one that faults. -/
theorem witness_HaltingOrFaultingCycleKeepsPc :
    (∃ t, step (image [0x01]) = .next t ∧ t.runState ≠ .running) ∧
      (∃ t, step State.reset = .next t ∧ t.runState ≠ .running) :=
  ⟨⟨_, rfl, by decide⟩, ⟨_, rfl, by decide⟩⟩

/-- A cycle that halts and one that does not. -/
theorem witness_OnlyHltHaltsAndPcStaysAtIt :
    (∃ t, step (imageFrom 253 [0x01]) = .next t ∧ t.runState = .halted) ∧
      (∃ t, step (image [0x47, 0]) = .next t ∧ t.runState ≠ .halted) :=
  ⟨⟨_, rfl, by decide⟩, ⟨_, rfl, by decide⟩⟩

/-- A step that faults and one that does not. -/
theorem witness_FaultRecordIsWrittenExactlyOnAFault :
    (∃ t, step State.reset = .next t ∧ t.runState = .faulted) ∧
      (∃ t, step (image [0x47, 0]) = .next t ∧ t.runState ≠ .faulted) :=
  ⟨⟨_, rfl, by decide⟩, ⟨_, rfl, by decide⟩⟩

theorem witness_LoadWritesAreAppliedInOrder : Memory.wf (image [1, 0, 2]).mem := by decide

/-- The empty image and one that fills memory. -/
theorem witness_BootShowsTheImageOverZeros :
    ([] : List Byte).length ≤ 256 ∧ (List.replicate 256 (1 : Byte)).length ≤ 256 :=
  ⟨by decide, by rw [List.length_replicate]⟩

theorem witness_FatalConditionEntry :
    (some 0x82 : Option Byte) = some 0x82 ∧ regOutOfRange 255 = .outOfRangeAddress .reg 255 := by decide

/-- HLT, LDI, PRN, JMP, ADD, MUL, CMP: any executing state, register 0 or 7. -/
theorem witness_registerInstructions :
    CanExecute (setPc 253 State.reset) ∧ NamesReg 0 ∧ NamesReg 7 := by decide

/-- PUSH and CALL: `sp` 1 and 256. -/
theorem witness_pushingInstructions :
    ∀ p ∈ ([1, 256] : List Ptr), CanExecute (setSp p State.reset) ∧ Memory.wf (setSp p State.reset).mem ∧ NamesReg 7 ∧
      1 ≤ (setSp p State.reset).sp.toNat ∧ (setSp p State.reset).sp.toNat ≤ 256 := by decide

/-- POP and RET: `sp` 0 and 255. -/
theorem witness_poppingInstructions :
    ∀ p ∈ ([0, 255] : List Ptr), CanExecute (setSp p State.reset) ∧ NamesReg 7 ∧
      (setSp p State.reset).sp.toNat ≤ 255 := by decide

/-- JEQ taken with register 7 and not taken with operand byte 255. -/
theorem witness_JeqJumpsExactlyWhenEqual :
    (CanExecute (setEqual true State.reset) ∧ ((setEqual true State.reset).equal = true → NamesReg 7)) ∧
      (CanExecute State.reset ∧ (State.reset.equal = true → NamesReg 255)) := by decide

/-- JNE taken with register 7 and not taken with operand byte 255. -/
theorem witness_JneJumpsExactlyWhenNotEqual :
    (CanExecute State.reset ∧ (State.reset.equal = false → NamesReg 7)) ∧
      (CanExecute (setEqual true State.reset) ∧ ((setEqual true State.reset).equal = false → NamesReg 255)) := by decide

theorem witness_LdiPrnJmpFaultOnABadRegister :
    CanExecute State.reset ∧ 7 < (8 : Byte).toNat ∧
      ((Instr.prn 8, (0x47 : Byte)) ∈ [(Instr.ldi 8 0, (0x82 : Byte)), (.prn 8, 0x47), (.jmp 8, 0x54)]) := by decide

/-- Operand A bad, and operand B alone bad. -/
theorem witness_AluFaultsOnOperandAFirst :
    CanExecute State.reset ∧ (7 < (8 : Byte).toNat ∨ 7 < (8 : Byte).toNat) ∧
      (7 < (0 : Byte).toNat ∨ 7 < (8 : Byte).toNat) ∧
      ((Instr.cmp 0 8, (0xA7 : Byte)) ∈ [(Instr.add 0 8, (0xA0 : Byte)), (.mul 0 8, 0xA2), (.cmp 0 8, 0xA7)]) := by decide

/-- A bad register at `sp` 256, the full stack with a good register, and both. -/
theorem witness_FaultingPushLeavesSpDecremented :
    (CanExecute State.reset ∧ State.reset.sp.toNat ≤ 256 ∧ 7 < (8 : Byte).toNat) ∧
      (CanExecute (setSp 0 State.reset) ∧ (setSp 0 State.reset).sp.toNat = 0) := by decide

/-- The empty stack, and a bad register at `sp` 255. -/
theorem witness_FaultingPopChangesNothing :
    (CanExecute State.reset ∧ State.reset.sp.toNat = 256) ∧
      (CanExecute (setSp 255 State.reset) ∧ (setSp 255 State.reset).sp.toNat ≤ 256 ∧ 7 < (8 : Byte).toNat) := by decide

/-- The full stack, and a bad target register at `sp` 1. -/
theorem witness_FaultingCallKeepsItsPartialEffects :
    (CanExecute (setSp 0 State.reset) ∧ Memory.wf (setSp 0 State.reset).mem ∧ (setSp 0 State.reset).sp.toNat = 0) ∧
      (CanExecute (setSp 1 State.reset) ∧ Memory.wf (setSp 1 State.reset).mem ∧
        (setSp 1 State.reset).sp.toNat ≤ 256 ∧ 7 < (8 : Byte).toNat) := by decide

theorem witness_RetOnTheEmptyStackFaults : CanExecute State.reset ∧ State.reset.sp.toNat = 256 := by decide

/-- With the flag clear and with it set. -/
theorem witness_TakenJumpFaultsOnABadRegister :
    CanExecute State.reset ∧ CanExecute (setEqual true State.reset) ∧ 7 < (8 : Byte).toNat := by decide

/-- `sp` 0 and 256. -/
theorem witness_InstructionsFaultExactlyAtTheListedSites :
    (CanExecute (setSp 0 State.reset) ∧ (setSp 0 State.reset).sp.toNat ≤ 256) ∧
      (CanExecute State.reset ∧ State.reset.sp.toNat ≤ 256) := by decide

/-- PUSH at `sp` 0 and POP at `sp` 256, both well formed. -/
theorem witness_WellFormedInstructionsFaultOnlyAtTheStackLimits :
    (CanExecute (setSp 0 State.reset) ∧ (setSp 0 State.reset).sp.toNat ≤ 256 ∧ Instr.wellFormed (.push 7) = true) ∧
      (CanExecute State.reset ∧ State.reset.sp.toNat ≤ 256 ∧ Instr.wellFormed (.pop 7) = true) := by decide

/-- A CMP that does not fault, one that does, and an instruction that is neither CMP nor a conditional jump. -/
theorem witness_EqualIsWrittenByCmpAndReadByJumpsOnly :
    (∃ t, CanExecute State.reset ∧ exec (.cmp 0 7) State.reset = .next t ∧ t.runState ≠ .faulted) ∧
      (∃ t, exec (.cmp 0 8) State.reset = .next t ∧ t.runState = .faulted ∧
        ∀ a, Instr.cmp 0 8 ≠ .jeq a ∧ Instr.cmp 0 8 ≠ .jne a) ∧
      (∃ t, exec .hlt State.reset = .next t ∧ (∀ a, Instr.hlt ≠ .jeq a ∧ Instr.hlt ≠ .jne a) ∧
        ∀ a b, Instr.hlt ≠ .cmp a b) :=
  ⟨⟨_, by decide, rfl, by decide⟩, ⟨_, rfl, by decide, by simp⟩, ⟨_, rfl, by simp, by simp⟩⟩

theorem witness_OutputGrowsOnlyByPrn : ∃ t, exec (.prn 7) State.reset = .next t := ⟨_, rfl⟩

/-- An instruction that neither pushes nor pops, a push that faults, a pop that faults and one that does not. -/
theorem witness_SpMovesOnlyByPushAndPop :
    (∃ t, CanExecute State.reset ∧ exec (.jmp 0) State.reset = .next t ∧ pushes (.jmp 0) = false ∧ pops (.jmp 0) = false) ∧
      (∃ t, CanExecute (setSp 0 State.reset) ∧ exec (.push 0) (setSp 0 State.reset) = .next t ∧ pushes (.push 0) = true) ∧
      (∃ t, CanExecute State.reset ∧ exec .ret State.reset = .next t ∧ pops .ret = true ∧ t.runState = .faulted) ∧
      (∃ t, CanExecute (setSp 255 State.reset) ∧ exec .ret (setSp 255 State.reset) = .next t ∧
        t.runState ≠ .faulted) :=
  ⟨⟨_, by decide, rfl, by decide⟩, ⟨_, by decide, rfl, by decide⟩, ⟨_, by decide, rfl, by decide⟩,
    ⟨_, by decide, rfl, by decide⟩⟩

theorem witness_MemoryIsWrittenOnlyAtThePushAddress :
    Memory.wf State.reset.mem ∧ (∃ t, exec (.push 0) State.reset = .next t ∧ pushes (.push 0) = true) ∧
      (∃ t, exec (.pop 0) State.reset = .next t ∧ pushes (.pop 0) = false) :=
  ⟨by decide, ⟨_, rfl, rfl⟩, ⟨_, rfl, rfl⟩⟩

/-- A register outside the written ones exists. -/
theorem witness_RegistersAreWrittenOnlyAsTabulated :
    ∃ t, exec (.call 1) State.reset = .next t ∧ (7 : Byte) ∉ mayWriteRegs (.call 1) := ⟨_, rfl, by decide⟩

/-- An instruction that advances from 253 and one that sets `pc`. -/
theorem witness_PcAdvancesByTheInstructionLength :
    (∃ t, CanExecute (setPc 253 State.reset) ∧ exec (.ldi 0 0) (setPc 253 State.reset) = .next t ∧
      t.runState = .running ∧ setsPc (.ldi 0 0) (setPc 253 State.reset) = false) ∧
      (∃ t, CanExecute State.reset ∧ exec (.jmp 0) State.reset = .next t ∧ t.runState = .running ∧
        setsPc (.jmp 0) State.reset = true) :=
  ⟨⟨_, by decide, rfl, by decide⟩, ⟨_, by decide, rfl, by decide⟩⟩

theorem witness_ConditionalJumpAdvancesByTwoOnlyWhenNotTaken :
    (CanExecute State.reset ∧ State.reset.equal = false) ∧
      (CanExecute (setEqual true State.reset) ∧ (setEqual true State.reset).equal = true) ∧ NamesReg 7 := by decide

/-- With POP in the very next state. -/
theorem witness_PushThenPopRoundTrip :
    ∃ t, Memory.wf State.reset.mem ∧ 1 ≤ State.reset.sp.toNat ∧ State.reset.sp.toNat ≤ 256 ∧ NamesReg 7 ∧ NamesReg 0 ∧
      exec (.push 7) State.reset = .next t ∧ t.sp = t.sp ∧ memByte t.mem t.sp.toNat = memByte t.mem t.sp.toNat :=
  ⟨_, by decide, by decide, by decide, by decide, by decide, rfl, rfl, rfl⟩

theorem witness_CallThenRetResumesAfterTheCall :
    ∃ t, CanExecute (setPc 253 State.reset) ∧ Memory.wf State.reset.mem ∧ 1 ≤ State.reset.sp.toNat ∧
      State.reset.sp.toNat ≤ 256 ∧ NamesReg 2 ∧ exec (.call 2) (setPc 253 State.reset) = .next t ∧ t.sp = t.sp ∧
      memByte t.mem t.sp.toNat = memByte t.mem t.sp.toNat :=
  ⟨_, by decide, by decide, by decide, by decide, by decide, rfl, rfl, rfl⟩

/-- PUSH at `pc` 251: onto 253, 254 and 255, the three positions of the next window, here of HLT's opcode byte. -/
theorem witness_PushedByteIsFetchedNext_push :
    ∀ p ∈ ([254, 255, 256] : List Ptr), let s := setReg 0 1 (setSp p (setPc 251 State.reset))
      ∃ t, CanExecute s ∧ Memory.wf s.mem ∧ NamesReg 0 ∧ 1 ≤ s.sp.toNat ∧ s.sp.toNat ≤ 256 ∧
        exec (.push 0) s = .next t ∧ t.pc.toNat ≤ 253 ∧ 253 ≤ (pushAddr s).toNat := by
  intro p hp
  simp only [List.mem_cons, List.not_mem_nil, or_false] at hp
  rcases hp with rfl | rfl | rfl <;>
    exact ⟨_, by decide, by decide, by decide, by decide, by decide, rfl, by decide, by decide⟩

/-- With 1 pushed onto 253 the next window is an instruction, with 0 it is an unknown opcode. -/
theorem witness_PushedByteIsFetchedNext_windows :
    let s := setSp 254 (setPc 251 State.reset)
    (decodeWindow (regVal (setReg 0 1 s) 0) (memByte s.mem 254) (memByte s.mem 255) = .instr .hlt) ∧
      (decodeWindow (regVal s 0) (memByte s.mem 254) (memByte s.mem 255) = .unknownOpcode 0) := by decide

/-- CALL at `pc` 69 pushes 71, PRN's opcode byte, onto 253 and jumps there. -/
theorem witness_PushedByteIsFetchedNext_call :
    ∃ t, let s := setReg 1 253 (setSp 254 (setPc 69 State.reset))
      CanExecute s ∧ Memory.wf s.mem ∧ NamesReg 1 ∧ 1 ≤ s.sp.toNat ∧ s.sp.toNat ≤ 256 ∧
      (71 : Byte).toNat = s.pc.toNat + 2 ∧ exec (.call 1) s = .next t ∧ t.pc.toNat = 253 ∧
      (pushAddr s).toNat = 253 ∧ decodeWindow 71 (memByte s.mem 254) (memByte s.mem 255) = .instr (.prn 0) :=
  ⟨_, by decide, by decide, by decide, by decide, by decide, by decide, rfl, by decide, by decide, by decide⟩

theorem witness_PushOntoItselfCompletes :
    let s := setSp 1 (image [0x45, 0])
    CanExecute s ∧ Memory.wf s.mem ∧ NamesReg 0 ∧ s.sp.toNat = s.pc.toNat + 1 ∧
      memByte s.mem s.pc.toNat = 0x45 ∧ memByte s.mem (s.pc.toNat + 1) = 0 := by decide

theorem witness_ExactlyOneConditionalJumpIsTaken :
    ∃ t u, CanExecute State.reset ∧ NamesReg 7 ∧ exec (.jeq 7) State.reset = .next t ∧
      exec (.jne 7) State.reset = .next u := ⟨_, _, by decide, by decide, rfl, rfl⟩

end Sys2Proof.Tests
end

section
/-! SUPPORT. What one instruction and one cycle can do, each said once: the results an instruction can have, one
constructor per outcome, and the three ways a cycle ends. The frames and invariants below are read off these. -/

namespace Sys2Proof.Machine

/-! ### The results of an instruction -/

/-- The states in which the cycle of an instruction run in `s` can end: one constructor per instruction that completes,
two for a conditional jump. An instruction that faults without pushing changes nothing but the record (`fault`); a PUSH
or CALL that faults keeps what the column "state already changed" of rule R165 lists. -/
inductive ExecResult (s : State) : Instr → State → Prop
  | hlt : ExecResult s .hlt (setRunState .halted s)
  | ldi {a b : Byte} (ha : a.toNat < 8) : ExecResult s (.ldi a b) (setPc (s.pc + 3) (setReg a b s))
  | prn {a : Byte} (ha : a.toNat < 8) : ExecResult s (.prn a) (setPc (s.pc + 2) (emit (regVal s a) s))
  | add {a b : Byte} (ha : a.toNat < 8) (hb : b.toNat < 8) :
      ExecResult s (.add a b)
        (setPc (s.pc + 3) (setReg a (BitVec.ofNat 8 (((regVal s a).toNat + (regVal s b).toNat) % 256)) s))
  | mul {a b : Byte} (ha : a.toNat < 8) (hb : b.toNat < 8) :
      ExecResult s (.mul a b)
        (setPc (s.pc + 3) (setReg a (BitVec.ofNat 8 (((regVal s a).toNat * (regVal s b).toNat) % 256)) s))
  | cmp {a b : Byte} (ha : a.toNat < 8) (hb : b.toNat < 8) :
      ExecResult s (.cmp a b) (setPc (s.pc + 3) (setEqual (equalFlag (regVal s a) (regVal s b)) s))
  | push {a : Byte} (ha : a.toNat < 8) (hsp : (pushAddr s).toNat < 256) :
      ExecResult s (.push a)
        (setPc (s.pc + 2) (setMem (memPut s.mem (pushAddr s).toNat (regVal s a)) (setSp (pushAddr s) s)))
  | pop {a : Byte} (hsp : s.sp.toNat < 256) (ha : a.toNat < 8) :
      ExecResult s (.pop a) (setPc (s.pc + 2) (setSp (s.sp + 1) (setReg a (memByte s.mem s.sp.toNat) s)))
  | call {a : Byte} (hsp : (pushAddr s).toNat < 256) (ha : a.toNat < 8) :
      ExecResult s (.call a) (setPc ((regVal (called s) a).setWidth 9) (called s))
  | ret (hsp : s.sp.toNat < 256) : ExecResult s .ret (setPc ((memByte s.mem s.sp.toNat).setWidth 9) (returned s))
  | jmp {a : Byte} (ha : a.toNat < 8) : ExecResult s (.jmp a) (setPc ((regVal s a).setWidth 9) s)
  | jeqTaken {a : Byte} (he : s.equal = true) (ha : a.toNat < 8) :
      ExecResult s (.jeq a) (setPc ((regVal s a).setWidth 9) s)
  | jeqNotTaken {a : Byte} (he : s.equal = false) : ExecResult s (.jeq a) (setPc (s.pc + 2) s)
  | jneTaken {a : Byte} (he : s.equal = false) (ha : a.toNat < 8) :
      ExecResult s (.jne a) (setPc ((regVal s a).setWidth 9) s)
  | jneNotTaken {a : Byte} (he : s.equal = true) : ExecResult s (.jne a) (setPc (s.pc + 2) s)
  | fault {i : Instr} {c : Condition} (hi : pushes i = false) (hc : conditionCause c = .outOfRangeAddress) :
      ExecResult s i (takeFatal s.pc (some (opcodeByte (handlerOf i))) c s)
  | pushRegFault {a : Byte} (ha : ¬ a.toNat < 8) :
      ExecResult s (.push a) (takeFatal s.pc (some 0x45) (regOutOfRange a) (setSp (pushAddr s) s))
  | pushMemFault {a : Byte} (ha : a.toNat < 8) (hsp : ¬ (pushAddr s).toNat < 256) :
      ExecResult s (.push a)
        (takeFatal s.pc (some 0x45) (memOutOfRange (pushAddr s).toNat) (setSp (pushAddr s) s))
  | callMemFault {a : Byte} (hsp : ¬ (pushAddr s).toNat < 256) :
      ExecResult s (.call a)
        (takeFatal s.pc (some 0x50) (memOutOfRange (pushAddr s).toNat) (setSp (pushAddr s) (linked s)))
  | callRegFault {a : Byte} (hsp : (pushAddr s).toNat < 256) (ha : ¬ a.toNat < 8) :
      ExecResult s (.call a) (takeFatal s.pc (some 0x50) (regOutOfRange a) (called s))

/-- Every next state of an instruction is one of the listed results. -/
theorem execResult_of_exec {i : Instr} {s t : State} (h : exec i s = .next t) : ExecResult s i t := by
  cases i with
  | hlt => cases h; exact .hlt
  | ldi a b =>
    rw [exec_ldi] at h; cases h
    split
    · exact .ldi ‹_›
    · exact .fault rfl rfl
  | prn a =>
    rw [exec_prn] at h; cases h
    split
    · exact .prn ‹_›
    · exact .fault rfl rfl
  | add a b =>
    rw [exec_add] at h; cases h
    split
    · split
      · exact .add ‹_› ‹_›
      · exact .fault rfl rfl
    · exact .fault rfl rfl
  | mul a b =>
    rw [exec_mul] at h; cases h
    split
    · split
      · exact .mul ‹_› ‹_›
      · exact .fault rfl rfl
    · exact .fault rfl rfl
  | cmp a b =>
    rw [exec_cmp] at h; cases h
    split
    · split
      · exact .cmp ‹_› ‹_›
      · exact .fault rfl rfl
    · exact .fault rfl rfl
  | push a =>
    rw [exec_push] at h; cases h
    split
    · split
      · exact .push ‹_› ‹_›
      · exact .pushMemFault ‹_› ‹_›
    · exact .pushRegFault ‹_›
  | pop a =>
    rw [exec_pop] at h; cases h
    split
    · split
      · exact .pop ‹_› ‹_›
      · exact .fault rfl rfl
    · exact .fault rfl rfl
  | call a =>
    rw [exec_call] at h; cases h
    split
    · split
      · exact .call ‹_› ‹_›
      · exact .callRegFault ‹_› ‹_›
    · exact .callMemFault ‹_›
  | ret =>
    rw [exec_ret] at h; cases h
    split
    · exact .ret ‹_›
    · exact .fault rfl rfl
  | jmp a =>
    rw [exec_jmp] at h; cases h
    split
    · exact .jmp ‹_›
    · exact .fault rfl rfl
  | jeq a =>
    rw [exec_jeq] at h; cases h
    split
    · split
      · exact .jeqTaken ‹_› ‹_›
      · exact .fault rfl rfl
    · exact .jeqNotTaken (Bool.eq_false_iff.2 ‹_›)
  | jne a =>
    rw [exec_jne] at h; cases h
    split
    · exact .jneNotTaken ‹_›
    · split
      · exact .jneTaken (Bool.eq_false_iff.2 ‹_›) ‹_›
      · exact .fault rfl rfl

/-- Memory keeps its canonical form: the only cell written is inside the 256 (rules R41, R42). -/
theorem ExecResult.mem_wf {i : Instr} {s t : State} (r : ExecResult s i t) (h : Memory.wf s.mem) :
    Memory.wf t.mem := by
  cases r with
  | push _ hsp => exact memPut_wf _ _ _ hsp h
  | call hsp _ => exact memPut_wf _ _ _ hsp h
  | callRegFault hsp _ => exact memPut_wf _ _ _ hsp h
  | _ => exact h

/-! ### The program counter -/

/-- A small advance from an address where an instruction can execute does not wrap (rule R18). -/
theorem toNat_pc_add (p n : Ptr) (hp : p.toNat ≤ 253) (hn : n.toNat ≤ 3) : (p + n).toNat = p.toNat + n.toNat :=
  BitVec.toNat_add_of_lt (by omega)

/-- A jump target is a register's byte, so an address (rule R130). -/
theorem toNat_target_le (v : Byte) : (v.setWidth 9 : Ptr).toNat ≤ 255 := by
  rw [BitVec.toNat_setWidth]
  omega

/-- A handler that does not set `pc` advances it by the length of the instruction (rule R86). -/
theorem ExecResult.pc_of_not_setsPc {i : Instr} {s t : State} (r : ExecResult s i t) (hp : s.pc.toNat ≤ 253)
    (ht : t.runState = .running) (hi : setsPc i s = false) : t.pc.toNat = s.pc.toNat + (encode i).length := by
  cases r with
  | ldi | add | mul | cmp => exact toNat_pc_add s.pc 3 hp (by decide)
  | prn | push | pop | jeqNotTaken | jneNotTaken => exact toNat_pc_add s.pc 2 hp (by decide)
  | call | ret | jmp => cases hi
  | jeqTaken he => exact absurd hi (by simp [setsPc, he])
  | jneTaken he => exact absurd hi (by simp [setsPc, he])
  | hlt | fault | pushRegFault | pushMemFault | callMemFault | callRegFault => cases ht

/-- A handler that sets `pc` and completes leaves it at a jump target (rules R91, R130). -/
theorem ExecResult.pc_le_of_setsPc {i : Instr} {s t : State} (r : ExecResult s i t)
    (ht : t.runState = .running) (hi : setsPc i s = true) : t.pc.toNat ≤ 255 := by
  cases r with
  | call | ret | jmp | jeqTaken | jneTaken => exact toNat_target_le _
  | jeqNotTaken he => exact absurd hi (by simp [setsPc, he])
  | jneNotTaken he => exact absurd hi (by simp [setsPc, he])
  | ldi | prn | add | mul | cmp | push | pop => cases hi
  | hlt | fault | pushRegFault | pushMemFault | callMemFault | callRegFault => cases ht

/-! ### The stack pointer -/

/-- The address of a push from a stack pointer in range: a cell, or 511 from 0 (rule R121). -/
theorem pushAddr_range (s : State) (h : s.sp.toNat ≤ 256) : (pushAddr s).toNat < 256 ∨ (pushAddr s).toNat = 511 := by
  by_cases h0 : s.sp.toNat = 0
  · have hs : s.sp = 0 := BitVec.eq_of_toNat_eq h0
    exact .inr (by rw [pushAddr, hs]; rfl)
  · rw [pushAddr_toNat s (by omega)]
    omega

/-- A pop from a stack that is not empty moves `sp` up without wrapping (rule R122). -/
theorem toNat_sp_succ (p : Ptr) (h : p.toNat < 256) : (p + 1).toNat = p.toNat + 1 :=
  BitVec.toNat_add_of_lt (by simp; omega)

/-- The stack pointer after an instruction: 0 to 256, or 511 in FAULTED (rules R21, R121). -/
theorem ExecResult.sp_range {i : Instr} {s t : State} (r : ExecResult s i t) (h : s.sp.toNat ≤ 256) :
    t.sp.toNat ≤ 256 ∨ t.runState = .faulted ∧ t.sp.toNat = 511 := by
  cases r with
  | push _ hsp => exact .inl (Nat.le_of_lt hsp)
  | call hsp _ => exact .inl (Nat.le_of_lt hsp)
  | pop hsp _ => exact .inl ((toNat_sp_succ s.sp hsp).trans_le hsp)
  | ret hsp => exact .inl ((toNat_sp_succ s.sp hsp).trans_le hsp)
  | pushRegFault | pushMemFault | callMemFault | callRegFault =>
    exact (pushAddr_range s h).imp Nat.le_of_lt fun hsp => ⟨rfl, hsp⟩
  | _ => exact .inl h

/-! ### The three ways a cycle ends -/

/-- How a cycle of `s` that ends in `t` leaves the run state, the fault record and `pc` (rules R86 to R88). -/
inductive CycleEnd (s t : State) : Prop
  | goesOn (hrun : t.runState = .running) (hfault : t.fault = s.fault)
  | halts (hfetch : fetchDecode s = .instr .hlt) (ht : t = setRunState .halted s)
  | faults (hrun : t.runState = .faulted)
      (hcause : t.fault.cause = .unknownOpcode ∨ t.fault.cause = .outOfRangeAddress)
      (hfaultPc : t.fault.pc = s.pc) (hpc : t.pc = s.pc)

/-- A fetch decodes the three bytes at an address of 253 or below, or raises an access outside memory (rule R83). -/
theorem fetchDecode_cases (s : State) :
    s.pc.toNat ≤ 253 ∧
        fetchDecode s =
          fetchedOf (decodeWindow (memByte s.mem s.pc.toNat) (memByte s.mem (s.pc.toNat + 1))
            (memByte s.mem (s.pc.toNat + 2))) ∨
      ∃ op a, fetchDecode s = .raise op (memOutOfRange a) := by
  rcases Nat.lt_or_ge s.pc.toNat 254 with hp | hp
  · exact .inl ⟨Nat.le_of_lt_succ hp, fetchDecode_eq s (Nat.le_of_lt_succ hp)⟩
  · rcases Nat.lt_or_ge s.pc.toNat 256 with hp' | hp'
    · exact .inr ⟨_, _, fetchDecode_top s hp (Nat.le_of_lt_succ hp')⟩
    · exact .inr ⟨_, _, fetchDecode_beyond s hp'⟩

/-- The fetch and the lookup raise UnknownOpcode or OutOfRangeAddress (rules R83, R84). -/
theorem conditionCause_of_fetchDecode {s : State} {op : Option Byte} {c : Condition}
    (h : fetchDecode s = .raise op c) :
    conditionCause c = .unknownOpcode ∨ conditionCause c = .outOfRangeAddress := by
  obtain ⟨-, hf⟩ | ⟨op', a, hf⟩ := fetchDecode_cases s
  · rw [hf] at h
    generalize decodeWindow _ _ _ = d at h
    cases d with
    | instr i => cases h
    | unknownOpcode op => cases h; exact .inl rfl
  · rw [hf] at h; cases h; exact .inr rfl

/-- An instruction is fetched only where its three bytes lie inside memory, and is what they decode to
(rules R81 to R84). -/
theorem fetchDecode_instr {s : State} {i : Instr} (h : fetchDecode s = .instr i) :
    s.pc.toNat ≤ 253 ∧
      decodeWindow (memByte s.mem s.pc.toNat) (memByte s.mem (s.pc.toNat + 1)) (memByte s.mem (s.pc.toNat + 2)) =
        .instr i := by
  obtain ⟨hp, hf⟩ | ⟨op, a, hf⟩ := fetchDecode_cases s
  · refine ⟨hp, ?_⟩
    rw [hf] at h
    generalize decodeWindow _ _ _ = d at h ⊢
    cases d with
    | instr j => cases h; rfl
    | unknownOpcode op => cases h
  · rw [hf] at h; cases h

/-- A key of the dispatch table is the opcode byte of the handler it selects (rules R63, R84). -/
theorem opcodeByte_of_lookupHandler {op : Byte} {k : Handler} (h : lookupHandler op = some k) : opcodeByte k = op := by
  obtain ⟨l, l', hl, -⟩ := List.lookup_eq_some_iff.1 h
  have hmem : (op, k) ∈ dispatchTable := by rw [hl]; simp
  exact (by decide : ∀ e ∈ dispatchTable, opcodeByte e.2 = e.1) _ hmem

/-- What a handler is assembled to runs that handler (rule R91). -/
@[simp] theorem handlerOf_assemble (k : Handler) (a b : Byte) : handlerOf (assemble k a b) = k := by
  cases k <;> rfl

/-- A window that decodes has the opcode byte of the instruction in front (rules R62, R63). -/
theorem opcodeByte_of_decodeWindow {op a b : Byte} {i : Instr} (h : decodeWindow op a b = .instr i) :
    opcodeByte (handlerOf i) = op := by
  unfold decodeWindow at h
  split at h
  · cases h
    rw [handlerOf_assemble, opcodeByte_of_lookupHandler ‹_›]
  · cases h

/-- The cycle of an instruction that was fetched ends in one of the three ways. -/
theorem ExecResult.cycleEnd {i : Instr} {s t : State} (r : ExecResult s i t) (hs : s.runState = .running)
    (hf : fetchDecode s = .instr i) : CycleEnd s t := by
  cases r with
  | hlt => exact .halts hf rfl
  | fault _ hc => exact .faults rfl (.inr hc) rfl rfl
  | pushRegFault | pushMemFault | callMemFault | callRegFault => exact .faults rfl (.inr rfl) rfl rfl
  | _ => exact .goesOn hs rfl

/-- Every step that answers a next state ends its cycle in one of the three ways. -/
theorem cycleEnd_of_step {s t : State} (h : step s = .next t) : CycleEnd s t := by
  obtain ⟨hs, ⟨i, hf, he⟩ | ⟨op, c, hf, rfl⟩⟩ := step_next s t h
  · exact (execResult_of_exec he).cycleEnd hs hf
  · exact .faults rfl (conditionCause_of_fetchDecode hf) rfl rfl

/-! ### The invariant, item by item -/

/-- A step keeps memory in canonical form. -/
theorem step_mem_wf {s t : State} (hi : Inv s) (h : step s = .next t) : Memory.wf t.mem := by
  obtain ⟨-, ⟨i, -, he⟩ | ⟨op, c, -, rfl⟩⟩ := step_next s t h
  · exact (execResult_of_exec he).mem_wf hi.memWf
  · exact hi.memWf

/-- A step leaves `sp` at 0 to 256, or at 511 in FAULTED (rules R21, R121). -/
theorem step_sp_range {s t : State} (hi : Inv s) (h : step s = .next t) :
    t.sp.toNat ≤ 256 ∨ t.runState = .faulted ∧ t.sp.toNat = 511 := by
  obtain ⟨hs, ⟨i, -, he⟩ | ⟨op, c, -, rfl⟩⟩ := step_next s t h
  all_goals have hsp : s.sp.toNat ≤ 256 := hi.spRange (by simp [hs])
  · exact (execResult_of_exec he).sp_range hsp
  · exact .inl hsp

/-- An instruction is at most three bytes long (rule R60). -/
theorem encode_length_le (i : Instr) : (encode i).length ≤ 3 := by
  cases i <;> simp [encode, operandBytes]

/-- A step that goes on leaves `pc` at 0 to 256: it advanced from 253 or below, or jumped (rules R17, R18). -/
theorem step_pc_le {s t : State} (h : step s = .next t) (ht : t.runState = .running) : t.pc.toNat ≤ 256 := by
  obtain ⟨-, ⟨i, hf, he⟩ | ⟨op, c, -, rfl⟩⟩ := step_next s t h
  · have hp := (fetchDecode_instr hf).1
    cases hset : setsPc i s with
    | false =>
      have := (execResult_of_exec he).pc_of_not_setsPc hp ht hset
      have := encode_length_le i
      omega
    | true =>
      have := (execResult_of_exec he).pc_le_of_setsPc ht hset
      omega
  · cases ht

end Sys2Proof.Machine
end

section
/-! PROOFS. The statements about the state (10_state.md): the invariant, the fault record, `pc`, load and exit status. -/

namespace Sys2Proof.Machine

/-- Settles O11, from the invariant's items and the way the cycle ended. -/
theorem stepKeepsTheInvariant : Obligations.StepKeepsTheInvariant := by
  intro s t hi h
  have hs := (step_next s t h).1
  have hsp := step_sp_range hi h
  have hclear : s.fault = FaultRecord.clear := hi.recordClear (by simp [hs])
  have hspRange : t.runState ≠ .faulted → t.sp.toNat ≤ 256 := fun ht => hsp.resolve_right fun hf => ht hf.1
  have hspFaulted : t.sp.toNat ≤ 256 ∨ t.sp.toNat = 511 := hsp.imp_right And.right
  cases cycleEnd_of_step h with
  | goesOn hrun hfault =>
    exact ⟨step_mem_wf hi h, step_pc_le h hrun, hspRange, hspFaulted, fun _ => hfault.trans hclear,
      by simp [hrun], by simp [hrun]⟩
  | halts hfetch ht =>
    subst ht
    obtain ⟨hp, hd⟩ := fetchDecode_instr hfetch
    exact ⟨step_mem_wf hi h, hi.pcRange, hspRange, hspFaulted, fun _ => hclear, by simp,
      fun _ => ⟨hp, (opcodeByte_of_decodeWindow hd).symm⟩⟩
  | faults hrun hcause hfaultPc hpc =>
    exact ⟨step_mem_wf hi h, hpc ▸ hi.pcRange, hspRange, hspFaulted, fun ht => absurd hrun ht,
      fun _ => ⟨hcause, hfaultPc.trans hpc.symm⟩, by simp [hrun]⟩

/-- Settles O12: the fault record starts clear and the machine RUNNING, so the items about stopped machines are empty. -/
theorem resetMeetsTheInvariant : Obligations.ResetMeetsTheInvariant where
  memWf := reset_mem_wf
  pcRange := by decide
  spRange := by decide
  spFaulted := by decide
  recordClear := fun _ => rfl
  recordSet := by decide
  haltedAtHlt := by decide

/-- Settles O13: only a cycle that goes on writes `pc`. -/
theorem haltingOrFaultingCycleKeepsPc : Obligations.HaltingOrFaultingCycleKeepsPc := by
  intro s t h ht
  cases cycleEnd_of_step h with
  | goesOn hrun _ => exact absurd hrun ht
  | halts _ hhalt => rw [hhalt, setRunState_pc]
  | faults _ _ _ hpc => exact hpc

/-- Settles O15, by the three ways a cycle ends. -/
theorem faultRecordIsWrittenExactlyOnAFault : Obligations.FaultRecordIsWrittenExactlyOnAFault := by
  intro s t h
  cases cycleEnd_of_step h with
  | goesOn hrun hfault => exact ⟨by simp [hrun], fun _ => hfault⟩
  | halts _ ht => subst ht; exact ⟨by simp, fun _ => rfl⟩
  | faults hrun hcause hfaultPc _ => exact ⟨fun _ => ⟨hcause, hfaultPc⟩, fun ht => absurd hrun ht⟩

/-- The last write of a list is made in the state the others left (rule R32). -/
theorem load_concat (ws : List (Byte × Byte)) (w : Byte × Byte) (s : State) :
    load (ws ++ [w]) s = loadByte w (load ws s) := by
  simp [load]

/-- Settles O17, by induction on the writes from the last one back. -/
theorem loadWritesAreAppliedInOrder : Obligations.LoadWritesAreAppliedInOrder := by
  intro ws s hs
  induction ws using List.reverseRecOn with
  | nil => exact ⟨fun _ => rfl, rfl⟩
  | append_singleton ws w ih =>
    obtain ⟨ihMem, ihFrame⟩ := ih
    rw [load_concat]
    constructor
    · intro n
      rw [loadByte, setMem_mem, memByte_memPut _ _ _ _ (load_wf ws s hs).1, ihMem n, List.reverse_append,
        List.reverse_singleton, List.singleton_append, List.find?_cons]
      by_cases hn : w.1.toNat = n
      · simp [hn]
      · simp [hn, Ne.symm hn]
    · rw [ihFrame]
      rfl

/-- Settles O19: `EXIT_FAULT` is one above a number, so not 0. -/
theorem exitStatusTellsHowTheRunEnded : Obligations.ExitStatusTellsHowTheRunEnded := by
  intro s
  cases hs : s.runState with
  | running => simp [exitStatus, hs]
  | halted => simp [exitStatus, hs]
  | faulted => simp [exitStatus, hs, Config.exitFault]

/-! ### What the instructions write -/

/-- Settles O45: PRN is the one result that emits. -/
theorem outputGrowsOnlyByPrn : Obligations.OutputGrowsOnlyByPrn := by
  intro i s t h
  cases execResult_of_exec h with
  | prn ha => exact .inr ⟨_, rfl, Nat.le_of_lt_succ ha, rfl⟩
  | _ => exact .inl rfl

/-- Settles O46: a result that pushes holds `pushAddr s`, faulting or not; one that pops and completes `sp + 1`. -/
theorem spMovesOnlyByPushAndPop : Obligations.SpMovesOnlyByPushAndPop := by
  intro i s t ⟨hs, _⟩ h
  cases execResult_of_exec h with
  | fault hi _ => simp [hi]
  | push | pushRegFault | pushMemFault | call | callMemFault | callRegFault => simp [pushes, pops, pushAddr]
  | pop | ret => simp [pushes, pops, hs]
  | _ => exact ⟨fun _ => rfl, nofun, nofun⟩

/-- Settles O48: the tabulated register is the only one a result sets. -/
theorem registersAreWrittenOnlyAsTabulated : Obligations.RegistersAreWrittenOnlyAsTabulated := by
  intro i s t h r hr
  cases execResult_of_exec h with
  | ldi | add | mul | pop => exact regVal_setReg_ne _ _ _ _ (List.ne_of_not_mem_cons hr)
  | call | callRegFault => exact regVal_called_ne _ _ (List.ne_of_not_mem_cons hr)
  | callMemFault => exact regVal_linked_ne _ _ (List.ne_of_not_mem_cons hr)
  | ret => exact regVal_returned_ne _ _ (List.ne_of_not_mem_cons hr)
  | _ => rfl

/-- Settles O49, from the two lemmas on `pc`: an advance from 253 or below does not wrap, a target is a byte. -/
theorem pcAdvancesByTheInstructionLength : Obligations.PcAdvancesByTheInstructionLength := by
  intro i s t ⟨_, hp⟩ h ht
  have r := execResult_of_exec h
  exact ⟨r.pc_of_not_setsPc hp ht, r.pc_le_of_setsPc ht⟩

/-- Settles O56: a step that does not fault fetched an instruction, at 253 or below, and keeps the invariant. -/
theorem pcNeverWraps : Obligations.PcNeverWraps := by
  intro s t hi h ht
  obtain ⟨-, ⟨i, hf, he⟩ | ⟨op, c, -, rfl⟩⟩ := step_next s t h
  · have hp := (fetchDecode_instr hf).1
    refine ⟨hp, (stepKeepsTheInvariant s t hi h).pcRange, fun j hj hset hrun => ?_⟩
    obtain rfl : i = j := by simpa [hf] using hj
    have hpc := (execResult_of_exec he).pc_of_not_setsPc hp hrun hset
    have hlen : 0 < (encode i).length := by simp [encode]
    omega
  · exact absurd rfl ht

/-! ### The flag -/

/-- The two values CMP compares give a set flag exactly when they are the same (rule R113). -/
theorem equalFlag_eq_true (p q : Byte) : equalFlag p q = true ↔ p = q := beq_iff_eq

/-- An instruction other than CMP and the conditional jumps does the same whatever the flag is, and leaves it. -/
theorem exec_setEqual {i : Instr} {s t : State} (e : Bool) (hcmp : ∀ a b, i ≠ .cmp a b)
    (hjump : ∀ a, i ≠ .jeq a ∧ i ≠ .jne a) (h : exec i s = .next t) :
    exec i (setEqual e s) = .next (setEqual e t) := by
  cases i with
  | cmp a b => exact absurd rfl (hcmp a b)
  | jeq a => exact absurd rfl (hjump a).1
  | jne a => exact absurd rfl (hjump a).2
  | hlt => cases h; rfl
  | ldi | prn | add | mul | push | pop | call | ret | jmp =>
    simp only [exec_ldi, exec_prn, exec_add, exec_mul, exec_push, exec_pop, exec_call, exec_ret, exec_jmp] at h ⊢
    cases h
    simp only [apply_ite (setEqual e)]
    rfl

/-- A CMP does not read the flag: it faults in the same way with either, or writes the same value over both. -/
theorem exec_cmp_setEqual {a b : Byte} {s t : State} (e : Bool) (hs : s.runState = .running)
    (h : exec (.cmp a b) s = .next t) :
    exec (.cmp a b) (setEqual e s) = .next (if t.runState = .faulted then setEqual e t else t) := by
  rw [exec_cmp] at h ⊢
  cases h
  by_cases ha : a.toNat < 8
  · by_cases hb : b.toNat < 8
    · simp only [ha, hb, if_true, setPc_runState, setEqual_runState, hs, reduceCtorEq, if_false]
      rfl
    · simp only [ha, hb, if_true, if_false, takeFatal_runState]
      rfl
  · simp only [ha, if_true, if_false, takeFatal_runState]
    rfl

/-- Only CMP writes the flag (rule R22). -/
theorem ExecResult.equal_of_ne_cmp {i : Instr} {s t : State} (r : ExecResult s i t) (hi : ∀ a b, i ≠ .cmp a b) :
    t.equal = s.equal := by
  cases r with
  | cmp => exact absurd rfl (hi _ _)
  | _ => rfl

/-- A CMP that completes sets the flag exactly when the two registers hold the same value (rules R22, R113). -/
theorem ExecResult.equal_of_cmp {a b : Byte} {s t : State} (r : ExecResult s (.cmp a b) t)
    (ht : t.runState ≠ .faulted) : t.equal = true ↔ regVal s a = regVal s b := by
  cases r with
  | cmp => exact equalFlag_eq_true _ _
  | fault => exact absurd rfl ht

/-- Settles O44: the writer from the results, the readers from running each instruction under the other flag. -/
theorem equalIsWrittenByCmpAndReadByJumpsOnly : Obligations.EqualIsWrittenByCmpAndReadByJumpsOnly := by
  intro i s t ⟨hs, _⟩ h
  have r := execResult_of_exec h
  refine ⟨r.equal_of_ne_cmp, ?_, ?_, ?_⟩
  · rintro a b rfl ht
    exact r.equal_of_cmp ht
  · intro hjump hcase e
    by_cases hcmp : ∃ a b, i = .cmp a b
    · obtain ⟨a, b, rfl⟩ := hcmp
      have ht : t.runState = .faulted := hcase.resolve_left fun hne => hne a b rfl
      exact (exec_cmp_setEqual e hs h).trans (by rw [if_pos ht]; rfl)
    · exact exec_setEqual e (fun a b hi => hcmp ⟨a, b, hi⟩) hjump h
  · rintro a b rfl ht e
    exact (exec_cmp_setEqual e hs h).trans (by rw [if_neg ht])

end Sys2Proof.Machine
end

section
/-! PROOFS. The statements about memory (20_memory.md): the one cell a cycle may write, and that the fetch of a cycle
sees the writes of every earlier cycle and none of its own. -/

namespace Sys2Proof.Machine

/-! ### What a cycle does to memory -/

/-- A cycle leaves memory alone, or is one of PUSH and CALL and writes the one cell at the new `sp` (rules R42, R91). -/
theorem ExecResult.mem_cases {i : Instr} {s t : State} (r : ExecResult s i t) :
    t.mem = s.mem ∨ pushes i = true ∧ ∃ v, t.mem = memPut s.mem (pushAddr s).toNat v := by
  cases r with
  | push | call | callRegFault => exact .inr ⟨rfl, _, rfl⟩
  | _ => exact .inl rfl

/-- A write to one cell leaves every other (rule R41). -/
theorem sameMemExcept_of_memPut {s t : State} {a : Nat} {v : Byte} (hwf : Memory.wf s.mem)
    (h : t.mem = memPut s.mem a v) : SameMemExcept [a] s t := by
  intro n hn
  rw [h, memByte_memPut _ _ _ _ hwf.1, if_neg (List.ne_of_not_mem_cons hn)]

/-- Settles O47: a result either has the memory of `s` or has written at the push address. -/
theorem memoryIsWrittenOnlyAtThePushAddress : Obligations.MemoryIsWrittenOnlyAtThePushAddress := by
  intro i s t hwf h
  obtain hmem | ⟨hi, v, hmem⟩ := (execResult_of_exec h).mem_cases
  · have same (n : Nat) : memByte t.mem n = memByte s.mem n := by rw [hmem]
    exact ⟨fun _ n _ => same n, fun _ n _ => same n⟩
  · exact ⟨fun hi' => absurd hi (by simp [hi']), fun _ => sameMemExcept_of_memPut hwf hmem⟩

/-! ### Pushes that complete -/

/-- A stack pointer of 1 to 256 leaves a cell to push onto (rule R121). -/
theorem pushAddr_lt {s : State} (h1 : 1 ≤ s.sp.toNat) (h256 : s.sp.toNat ≤ 256) : (pushAddr s).toNat < 256 := by
  rw [pushAddr_toNat s h1]
  omega

/-- A PUSH of a register onto a stack with room completes (rule R121). -/
theorem exec_push_of_lt {a : Byte} {s : State} (ha : NamesReg a) (hsp : (pushAddr s).toNat < 256) :
    exec (.push a) s =
      .next (setPc (s.pc + 2) (setMem (memPut s.mem (pushAddr s).toNat (regVal s a)) (setSp (pushAddr s) s))) := by
  rw [exec_push, if_pos (Nat.lt_succ_of_le ha), if_pos hsp]

/-- A CALL through a register with room on the stack completes (rule R131). -/
theorem exec_call_of_lt {a : Byte} {s : State} (ha : NamesReg a) (hsp : (pushAddr s).toNat < 256) :
    exec (.call a) s = .next (setPc ((regVal (called s) a).setWidth 9) (called s)) := by
  rw [exec_call, if_pos hsp, if_pos (Nat.lt_succ_of_le ha)]

/-! ### The fetch sees the store of the cycle before -/

/-- After a cell was written, a fetch inside memory decodes the byte written there and the old bytes elsewhere, in
whichever of the three window positions the cell stands (rules R51, R82). -/
theorem fetchDecode_of_memPut {s t : State} {a : Nat} {v : Byte} (hwf : Memory.wf s.mem)
    (hmem : t.mem = memPut s.mem a v) (hpc : t.pc.toNat ≤ 253) :
    let seen : Nat → Byte := fun n => if n = a then v else memByte s.mem n
    fetchDecode t = fetchedOf (decodeWindow (seen t.pc.toNat) (seen (t.pc.toNat + 1)) (seen (t.pc.toNat + 2))) := by
  simp only [fetchDecode_eq t hpc, hmem, memByte_memPut _ _ _ _ hwf.1]

/-- Settles O53: a PUSH or CALL that completes goes on RUNNING with `v` put into the cell at the push address. -/
theorem pushedByteIsFetchedNext : Obligations.PushedByteIsFetchedNext := by
  intro s t i a v ⟨hrun, hp⟩ hwf ha h1 h256 hcase h hpc
  have hsp := pushAddr_lt h1 h256
  have ⟨ht, hmem⟩ : t.runState = .running ∧ t.mem = memPut s.mem (pushAddr s).toNat v := by
    obtain ⟨rfl, rfl⟩ | ⟨rfl, hv⟩ := hcase
    · rw [exec_push_of_lt ha hsp] at h
      cases h
      exact ⟨hrun, rfl⟩
    · obtain rfl : v = returnAddress s := BitVec.eq_of_toNat_eq (hv.trans (returnAddress_toNat s hp).symm)
      rw [exec_call_of_lt ha hsp] at h
      cases h
      exact ⟨hrun, rfl⟩
  have hfetch := fetchDecode_of_memPut hwf hmem hpc
  exact ⟨hfetch, fun j hj => step_of_instr t j ht (hfetch.trans (congrArg fetchedOf hj)),
    fun op hop => step_of_raise t _ _ ht (hfetch.trans (congrArg fetchedOf hop))⟩

/-! ### The fetch does not see the store of its own cycle -/

/-- The opcode byte of PUSH decodes to PUSH, whatever the third byte is (rules R63, R70). -/
theorem decodeWindow_push (a b : Byte) : decodeWindow 0x45 a b = .instr (.push a) := rfl

/-- Settles O54: the step runs the PUSH it fetched, whose push address is `pc`. -/
theorem pushOntoItselfCompletes : Obligations.PushOntoItselfCompletes := by
  intro s a ⟨hrun, hp⟩ hwf ha hspPc hop harg
  have haddr : (pushAddr s).toNat = s.pc.toNat := by
    rw [pushAddr_toNat s (by omega)]
    omega
  have hfetch : fetchDecode s = .instr (.push a) := by
    rw [fetchDecode_eq s hp, hop, harg, decodeWindow_push, fetchedOf_instr]
  have hstep := (step_of_instr s _ hrun hfetch).trans (exec_push_of_lt ha (by omega))
  rw [haddr] at hstep
  refine ⟨_, hstep, hrun, toNat_pc_add s.pc 2 hp (by decide), ?_, sameMemExcept_of_memPut hwf rfl⟩
  exact (memByte_memPut _ _ _ _ hwf.1).trans (if_pos rfl)

end Sys2Proof.Machine
end

section
/-! SUPPORT. The decoder and the encoder by handler: a key of the dispatch table and the handler it selects determine
each other, and the window a handler was assembled from starts with the encoding of the instruction. -/

namespace Sys2Proof.Machine

/-! ### The dispatch table -/

/-- The opcode byte of a handler is its key in the dispatch table (rules R63, R84). -/
@[simp] theorem lookupHandler_opcodeByte (k : Handler) : lookupHandler (opcodeByte k) = some k := by
  cases k <;> rfl

/-- The dispatch table pairs each handler with its opcode byte and with no other (rule R63). -/
theorem lookupHandler_eq_some_iff {op : Byte} {k : Handler} : lookupHandler op = some k ↔ opcodeByte k = op :=
  ⟨opcodeByte_of_lookupHandler, fun h => h ▸ lookupHandler_opcodeByte k⟩

/-- The lookup fails exactly on the bytes that are no key (rule R84). -/
theorem lookupHandler_eq_none_iff {op : Byte} : lookupHandler op = none ↔ op ∉ dispatchTable.map Prod.fst := by
  simp only [lookupHandler, List.lookup_eq_none_iff, bne_iff_ne, List.mem_map, not_exists, not_and,
    ne_comm (a := op), ne_eq]

/-- The keys of the dispatch table as numbers. -/
def keyNumbers : Finset Nat := (dispatchTable.map fun e => e.1.toNat).toFinset

/-- A byte value is a key exactly when its number is one of the keys' numbers. -/
theorem lookupHandler_ofNat_eq_none_iff {n : Nat} (hn : n < 256) :
    lookupHandler (BitVec.ofNat 8 n) = none ↔ n ∉ keyNumbers := by
  simp only [lookupHandler_eq_none_iff, keyNumbers, List.mem_toFinset, List.mem_map, ← BitVec.toNat_inj,
    BitVec.toNat_ofNat, Nat.mod_eq_of_lt hn]

/-- The lookup fails on all of the 256 byte values but the 13 keys (rule R68). -/
theorem length_filter_lookupHandler_eq_none :
    ((List.range 256).filter fun n => decide (lookupHandler (BitVec.ofNat 8 n) = none)).length = 243 := by
  have hcompl : (Finset.range 256).filter (fun n => lookupHandler (BitVec.ofNat 8 n) = none) =
      Finset.range 256 \ keyNumbers := by
    rw [← Finset.filter_notMem_eq_sdiff]
    exact Finset.filter_congr fun n hn => lookupHandler_ofNat_eq_none_iff (Finset.mem_range.1 hn)
  calc
    _ = ((Finset.range 256).filter fun n => lookupHandler (BitVec.ofNat 8 n) = none).card := rfl
    _ = 256 - 13 := by
      rw [hcompl, Finset.card_sdiff_of_subset (by decide), Finset.card_range, show keyNumbers.card = 13 by decide]

/-! ### The decoder -/

/-- A window decodes to an instruction exactly when its first byte is the opcode byte of a handler that assembles to
it (rules R84, R91). -/
theorem decodeWindow_eq_instr_iff {op a b : Byte} {i : Instr} :
    decodeWindow op a b = .instr i ↔ ∃ k, opcodeByte k = op ∧ assemble k a b = i := by
  simp only [← lookupHandler_eq_some_iff]
  unfold decodeWindow
  cases lookupHandler op <;> simp

/-- A window that starts with a handler's opcode byte decodes to that handler on the next two bytes. -/
theorem decodeWindow_opcodeByte (k : Handler) (a b : Byte) :
    decodeWindow (opcodeByte k) a b = .instr (assemble k a b) :=
  decodeWindow_eq_instr_iff.2 ⟨k, rfl, rfl⟩

/-- A window is refused exactly when the lookup of its first byte fails (rule R84). -/
theorem decodeWindow_eq_unknownOpcode_iff {op a b : Byte} :
    decodeWindow op a b = .unknownOpcode op ↔ lookupHandler op = none := by
  unfold decodeWindow
  cases lookupHandler op <;> simp

/-! ### The encoder -/

/-- An instruction is assembled again from its operand bytes, whatever bytes follow them (rules R61, R70). -/
theorem assemble_operandBytes (i : Instr) (l : List Byte) :
    assemble (handlerOf i) ((operandBytes i ++ l).getD 0 0) ((operandBytes i ++ l).getD 1 0) = i := by
  cases i <;> rfl

/-- The encoding of an assembled instruction is the bytes it was assembled from, cut to the length of its format
(rules R60, R61, R66). -/
theorem encode_assemble (k : Handler) (a b : Byte) :
    encode (assemble k a b) = [opcodeByte k, a, b].take (formatLength (handlerFormat k)) := by
  cases k <;> rfl

/-- Bytes that start with the encoding of an instruction decode to it, whatever follows. -/
theorem decodeBytes_encode_append (i : Instr) (l : List Byte) : decodeBytes (encode i ++ l) = .instr i :=
  (decodeWindow_opcodeByte (handlerOf i) _ _).trans (congrArg Decoded.instr (assemble_operandBytes i l))

end Sys2Proof.Machine
end

section
/-! PROOFS. The statements about the encoding (30_encoding.md): decode and encode agree, and which bytes are refused. -/

namespace Sys2Proof.Machine

/-- Settles O1: the two trailing bytes are a case of any bytes that follow. -/
theorem decodeOfEncodeIsTheInstruction : Obligations.DecodeOfEncodeIsTheInstruction :=
  fun i x y => decodeBytes_encode_append i [x, y]

/-- Settles O2: the window names the handler, and the instruction is what the handler assembles. -/
theorem decodedWindowStartsWithTheEncoding : Obligations.DecodedWindowStartsWithTheEncoding := by
  intro op a b i h
  obtain ⟨k, rfl, rfl⟩ := decodeWindow_eq_instr_iff.1 h
  rw [encode_assemble, instrLength, handlerOf_assemble]

/-- Settles O5, from O1 and O2: the first bytes of the window are the encoding, and what follows it does not matter. -/
theorem unusedWindowBytesAreIgnored : Obligations.UnusedWindowBytesAreIgnored := by
  intro op a b a' b' i h
  have henc := decodedWindowStartsWithTheEncoding op a b i h
  refine ⟨fun hlen => ?_, fun hlen => ?_⟩ <;> rw [hlen] at henc
  · have hdec := decodeBytes_encode_append i [a', b']
    rwa [henc] at hdec
  · have hdec := decodeBytes_encode_append i [b']
    rwa [henc] at hdec

/-- Settles O3: the listed opcodes are the keys of the dispatch table in rising order. -/
theorem exactlyTheOther243OpcodesAreUnknown : Obligations.ExactlyTheOther243OpcodesAreUnknown := by
  refine ⟨fun op a b => ?_, length_filter_lookupHandler_eq_none⟩
  have hkeys : (dispatchTable.map Prod.fst).Perm
      [0x01, 0x11, 0x45, 0x46, 0x47, 0x50, 0x54, 0x55, 0x56, 0x82, 0xA0, 0xA2, 0xA7] := by decide
  rw [decodeWindow_eq_unknownOpcode_iff, lookupHandler_eq_none_iff, hkeys.mem_iff]

/-- Settles O4: five of the words start with the opcode byte of a handler, and `0xFF` is no key. -/
theorem specWordsDecodeAsWritten : Obligations.SpecWordsDecodeAsWritten :=
  ⟨decodeWindow_opcodeByte .hlt _ _, decodeWindow_opcodeByte .ldi _ _, decodeWindow_opcodeByte .add _ _,
    decodeWindow_opcodeByte .push _ _, decodeWindow_opcodeByte .jne _ _, decodeWindow_eq_unknownOpcode_iff.2 rfl⟩

end Sys2Proof.Machine
end

section
/-! PROOFS. The statements about one cycle (40_cycle_and_dispatch.md): what a step runs, where its fetch faults, that a
RUNNING machine goes on to a next state, and which step halts. -/

namespace Sys2Proof.Machine

/-! ### A step by run state -/

/-- Settles O6: inside memory the fetch decodes the three bytes at `pc`. -/
theorem stepRunsTheDecodedInstruction : Obligations.StepRunsTheDecodedInstruction := by
  intro s i ⟨hs, hp⟩ hd
  have hf : fetchDecode s = .instr i := by rw [fetchDecode_eq s hp, hd, fetchedOf_instr]
  exact step_of_instr s i hs hf

/-- Settles O9: the two cases of a step in which no cycle runs. -/
theorem stoppedMachineHasNoSuccessor : Obligations.StoppedMachineHasNoSuccessor := by
  intro s
  constructor <;> intro hs <;> rw [step_eq, hs]

/-- Settles O10: the cycle runs an instruction, which always answers, or takes a fatal condition. -/
theorem runningStepAnswersANextState : Obligations.RunningStepAnswersANextState := by
  intro s hs
  cases hf : fetchDecode s with
  | instr i => exact ⟨_, (step_of_instr s i hs hf).trans (exec_eq i s)⟩
  | raise op c => exact ⟨_, step_of_raise s op c hs hf⟩

/-! ### The fetch at the top of memory -/

/-- The opcode byte at `pc`, when there is such a cell: what the fault record holds of a fetch that fails (rule R26). -/
def fetchedOpcode (s : State) : Option Byte := if s.pc.toNat ≤ 255 then some (memByte s.mem s.pc.toNat) else none

/-- The opcode byte is valid in the record exactly when its cell exists. -/
theorem fetchedOpcode_isSome (s : State) : (fetchedOpcode s).isSome = decide (s.pc.toNat ≤ 255) := by
  by_cases hp : s.pc.toNat ≤ 255 <;> simp [fetchedOpcode, hp]

/-- The opcode byte in the record is the one in memory, when its cell exists. -/
theorem fetchedOpcode_getD (s : State) (hp : s.pc.toNat ≤ 255) :
    (fetchedOpcode s).getD 0 = memByte s.mem s.pc.toNat := by
  rw [fetchedOpcode, if_pos hp, Option.getD_some]

/-- From 254 to 256 the first read outside memory is that of address 256 (rule R83). -/
theorem fetchDecode_outside (s : State) (h : 254 ≤ s.pc.toNat) (h' : s.pc.toNat ≤ 256) :
    fetchDecode s = .raise (fetchedOpcode s) (memOutOfRange 256) := by
  unfold fetchedOpcode
  split
  · exact fetchDecode_top s h ‹_›
  · rw [fetchDecode_beyond s (by omega), show s.pc.toNat = 256 by omega]

/-- Settles O7: the step takes the fatal condition of the fetch, which touches the run state and the record alone. -/
theorem fetchBeyondMemoryFaults : Obligations.FetchBeyondMemoryFaults := by
  intro s hs h h'
  exact ⟨_, step_of_raise s _ _ hs (fetchDecode_outside s h h'), rfl, rfl, rfl, rfl, rfl, fetchedOpcode_isSome s,
    fetchedOpcode_getD s, fun _ _ => rfl, fun _ _ => rfl, rfl, rfl, rfl, rfl⟩

/-! ### The halt -/

/-- HLT is fetched exactly where an instruction can execute and its opcode byte stands (rules R63, R83). -/
theorem fetchDecode_eq_hlt_iff (s : State) :
    fetchDecode s = .instr .hlt ↔ s.pc.toNat ≤ 253 ∧ memByte s.mem s.pc.toNat = 0x01 := by
  constructor
  · intro hf
    obtain ⟨hp, hd⟩ := fetchDecode_instr hf
    exact ⟨hp, (opcodeByte_of_decodeWindow hd).symm⟩
  · rintro ⟨hp, hop⟩
    rw [fetchDecode_eq s hp, hop]
    exact congrArg fetchedOf (decodeWindow_opcodeByte .hlt _ _)

/-- A step that fetched HLT does nothing but halt (rules R87, R100). -/
theorem step_of_fetched_hlt {s t : State} (h : step s = .next t) (hf : fetchDecode s = .instr .hlt) :
    t = setRunState .halted s := by
  rw [step_of_instr s .hlt (step_next s t h).1 hf, exec_hlt] at h
  cases h
  rfl

/-- A step ends in HALTED exactly when it fetched HLT (rule R87). -/
theorem halted_iff_fetched_hlt {s t : State} (h : step s = .next t) :
    t.runState = .halted ↔ fetchDecode s = .instr .hlt := by
  constructor
  · intro ht
    cases cycleEnd_of_step h with
    | goesOn hrun _ => simp [hrun] at ht
    | halts hfetch _ => exact hfetch
    | faults hrun _ _ _ => simp [hrun] at ht
  · intro hf
    rw [step_of_fetched_hlt h hf, setRunState_runState]

/-- Settles O14: a step halts exactly when it fetched HLT, and the halt leaves `pc` and memory alone. -/
theorem onlyHltHaltsAndPcStaysAtIt : Obligations.OnlyHltHaltsAndPcStaysAtIt := by
  intro s t h
  rw [halted_iff_fetched_hlt h]
  refine ⟨?_, fun hf => ?_⟩
  · rw [fetchDecode_eq_hlt_iff]
    exact (and_iff_right (step_next s t h).1).symm
  · rw [step_of_fetched_hlt h hf]
    exact ⟨rfl, ((fetchDecode_eq_hlt_iff s).1 hf).2⟩

end Sys2Proof.Machine
end

section
/-! PROOFS. The statements about HLT, LDI and PRN (41_system_hlt_ldi_prn.md): what each does when it completes, and the
fault of a register number above 7, which LDI and PRN share with JMP. -/

namespace Sys2Proof.Machine

/-! ### Instructions that complete -/

/-- LDI into a register completes (rule R101). -/
theorem exec_ldi_of_namesReg {a : Byte} (ha : NamesReg a) (b : Byte) (s : State) :
    exec (.ldi a b) s = .next (setPc (s.pc + 3) (setReg a b s)) := by
  rw [exec_ldi, if_pos (Nat.lt_succ_of_le ha)]

/-- PRN of a register completes (rule R102). -/
theorem exec_prn_of_namesReg {a : Byte} (ha : NamesReg a) (s : State) :
    exec (.prn a) s = .next (setPc (s.pc + 2) (emit (regVal s a) s)) := by
  rw [exec_prn, if_pos (Nat.lt_succ_of_le ha)]

/-- Writing a register leaves the registers other than that one. -/
theorem sameRegsExcept_setReg (a v : Byte) (s : State) : SameRegsExcept [a] s (setReg a v s) :=
  fun r hr => regVal_setReg_ne a v r s (List.ne_of_not_mem_cons hr)

/-- Settles O22: HLT writes the run state alone. -/
theorem hltHalts : Obligations.HltHalts := by
  intro s _
  exact ⟨_, exec_hlt s, rfl, rfl, fun _ _ => rfl, fun _ _ => rfl, rfl, rfl, rfl, rfl⟩

/-- Settles O23: the written register reads as the immediate, and the advance from 253 or below does not wrap. -/
theorem ldiWritesTheImmediate : Obligations.LdiWritesTheImmediate := by
  intro s a b ⟨_, hp⟩ ha
  have hreg : regVal (setReg a b s) a = b := regVal_setReg_self a b s (Nat.lt_succ_of_le ha)
  have hpc : (s.pc + 3).toNat = s.pc.toNat + 3 := toNat_pc_add s.pc 3 hp (by decide)
  exact ⟨_, exec_ldi_of_namesReg ha b s, hreg, hpc, sameRegsExcept_setReg a b s, fun _ _ => rfl, rfl, rfl, rfl, rfl, rfl⟩

/-- Settles O24: PRN writes the output and `pc` alone, and the advance from 253 or below does not wrap. -/
theorem prnEmitsTheRegister : Obligations.PrnEmitsTheRegister := by
  intro s a ⟨_, hp⟩ ha
  have hpc : (s.pc + 2).toNat = s.pc.toNat + 2 := toNat_pc_add s.pc 2 hp (by decide)
  exact ⟨_, exec_prn_of_namesReg ha s, rfl, hpc, fun _ _ => rfl, fun _ _ => rfl, rfl, rfl, rfl, rfl⟩

/-! ### The fault of a register number above 7 -/

/-- The register fault records kind reg and the operand byte, at the `pc` of the cycle's start `s`; the cycle may have
written registers, memory and `sp` by the time of the raise in `u` (rules R13, R26, R157). -/
theorem faultedAccess_regOutOfRange {s u : State} (op a : Byte) (hpc : u.pc = s.pc) (hequal : u.equal = s.equal)
    (hout : u.out = s.out) :
    FaultedAccess op .reg a.toNat s (takeFatal s.pc (some op) (regOutOfRange a) u) :=
  ⟨rfl, rfl, rfl, rfl, rfl, rfl, BitVec.toNat_setWidth_of_le (by decide), hpc, hequal, hout⟩

/-- LDI, PRN and JMP raise the register fault as their first sub-step (rule R165, rows 5, 6 and 16). -/
theorem exec_ldi_prn_jmp_of_badReg {a b op : Byte} {i : Instr} (s : State) (ha : 7 < a.toNat)
    (hi : (i, op) ∈ [(.ldi a b, 0x82), (.prn a, 0x47), (.jmp a, 0x54)]) :
    exec i s = .next (takeFatal s.pc (some op) (regOutOfRange a) s) := by
  have hbad : ¬ a.toNat < 8 := Nat.not_lt.2 ha
  simp only [List.mem_cons, List.not_mem_nil, or_false, Prod.mk.injEq] at hi
  obtain ⟨rfl, rfl⟩ | ⟨rfl, rfl⟩ | ⟨rfl, rfl⟩ := hi
  · rw [exec_ldi, if_neg hbad]
  · rw [exec_prn, if_neg hbad]
  · rw [exec_jmp, if_neg hbad]

/-- Settles O35: the fatal condition is taken in the state the cycle started from. -/
theorem ldiPrnJmpFaultOnABadRegister : Obligations.LdiPrnJmpFaultOnABadRegister := by
  intro s a b _ ha i op hi
  exact ⟨_, exec_ldi_prn_jmp_of_badReg s ha hi, faultedAccess_regOutOfRange op a rfl rfl rfl, fun _ _ => rfl,
    fun _ _ => rfl, rfl⟩

end Sys2Proof.Machine
end

section
/-! PROOFS. The statements about ADD, MUL and CMP (42_alu_add_mul_cmp.md): what each does when both operands name
registers, and the one register fault the three share. -/

namespace Sys2Proof.Machine

/-! ### Instructions that complete -/

/-- ADD of two registers completes (rule R111). -/
theorem exec_add_of_namesReg {a b : Byte} (ha : NamesReg a) (hb : NamesReg b) (s : State) :
    exec (.add a b) s = .next
      (setPc (s.pc + 3) (setReg a (BitVec.ofNat 8 (((regVal s a).toNat + (regVal s b).toNat) % 256)) s)) := by
  rw [exec_add, if_pos (Nat.lt_succ_of_le ha), if_pos (Nat.lt_succ_of_le hb)]

/-- MUL of two registers completes (rule R112). -/
theorem exec_mul_of_namesReg {a b : Byte} (ha : NamesReg a) (hb : NamesReg b) (s : State) :
    exec (.mul a b) s = .next
      (setPc (s.pc + 3) (setReg a (BitVec.ofNat 8 (((regVal s a).toNat * (regVal s b).toNat) % 256)) s)) := by
  rw [exec_mul, if_pos (Nat.lt_succ_of_le ha), if_pos (Nat.lt_succ_of_le hb)]

/-- CMP of two registers completes (rule R113). -/
theorem exec_cmp_of_namesReg {a b : Byte} (ha : NamesReg a) (hb : NamesReg b) (s : State) :
    exec (.cmp a b) s = .next (setPc (s.pc + 3) (setEqual (equalFlag (regVal s a) (regVal s b)) s)) := by
  rw [exec_cmp, if_pos (Nat.lt_succ_of_le ha), if_pos (Nat.lt_succ_of_le hb)]

/-- The register written with the low 8 bits of an exact result reads as that result modulo 256 (rules R110, R115). -/
theorem toNat_regVal_setReg_mod {a : Byte} (ha : NamesReg a) (n : Nat) (s : State) :
    (regVal (setReg a (BitVec.ofNat 8 (n % 256)) s) a).toNat = n % 256 := by
  rw [regVal_setReg_self a _ s (Nat.lt_succ_of_le ha), BitVec.toNat_ofNat]
  exact Nat.mod_mod n 256

/-- Settles O25: the written register reads as the sum modulo 256, and the advance from 253 or below does not wrap. -/
theorem addStoresTheSumModulo256 : Obligations.AddStoresTheSumModulo256 := by
  intro s a b ⟨_, hp⟩ ha hb
  have hpc : (s.pc + 3).toNat = s.pc.toNat + 3 := toNat_pc_add s.pc 3 hp (by decide)
  exact ⟨_, exec_add_of_namesReg ha hb s, toNat_regVal_setReg_mod ha _ s, hpc, sameRegsExcept_setReg a _ s,
    fun _ _ => rfl, rfl, rfl, rfl, rfl, rfl⟩

/-- Settles O26: the written register reads as the product modulo 256, and the advance from 253 or below does not
wrap. -/
theorem mulStoresTheProductModulo256 : Obligations.MulStoresTheProductModulo256 := by
  intro s a b ⟨_, hp⟩ ha hb
  have hpc : (s.pc + 3).toNat = s.pc.toNat + 3 := toNat_pc_add s.pc 3 hp (by decide)
  exact ⟨_, exec_mul_of_namesReg ha hb s, toNat_regVal_setReg_mod ha _ s, hpc, sameRegsExcept_setReg a _ s,
    fun _ _ => rfl, rfl, rfl, rfl, rfl, rfl⟩

/-- Settles O27: CMP writes the flag and `pc` alone; two bytes are the same exactly when their numbers are. -/
theorem cmpSetsEqualExactlyOnEqualRegisters : Obligations.CmpSetsEqualExactlyOnEqualRegisters := by
  intro s a b ⟨_, hp⟩ ha hb
  have hflag : equalFlag (regVal s a) (regVal s b) = true ↔ (regVal s a).toNat = (regVal s b).toNat :=
    (equalFlag_eq_true _ _).trans BitVec.toNat_inj.symm
  have hpc : (s.pc + 3).toNat = s.pc.toNat + 3 := toNat_pc_add s.pc 3 hp (by decide)
  exact ⟨_, exec_cmp_of_namesReg ha hb s, hflag, hpc, fun _ _ => rfl, fun _ _ => rfl, rfl, rfl, rfl, rfl⟩

/-! ### The fault of a register number above 7 -/

/-- The ALU handler raises on operand A if it names no register, else on operand B, before any write
(rules R111 to R113, R159). -/
theorem aluHandler_of_badReg (op : AluOp) {a b : Byte} (s : State) (h : 7 < a.toNat ∨ 7 < b.toNat) :
    aluHandler op a b s = .raise (regOutOfRange (if 7 < a.toNat then a else b)) s := by
  rw [aluHandler_eq]
  by_cases ha : 7 < a.toNat
  · rw [if_neg (Nat.not_lt.2 ha), if_pos ha]
  · have hb : 7 < b.toNat := h.resolve_left ha
    rw [if_pos (Nat.lt_succ_of_le (Nat.not_lt.1 ha)), if_neg (Nat.not_lt.2 hb), if_neg ha]

/-- ADD, MUL and CMP share the handler and so its fault (rule R165, rows 7 and 8). -/
theorem exec_alu_of_badReg {a b op : Byte} {i : Instr} (s : State) (h : 7 < a.toNat ∨ 7 < b.toNat)
    (hi : (i, op) ∈ [(.add a b, 0xA0), (.mul a b, 0xA2), (.cmp a b, 0xA7)]) :
    exec i s = .next (takeFatal s.pc (some op) (regOutOfRange (if 7 < a.toNat then a else b)) s) := by
  simp only [List.mem_cons, List.not_mem_nil, or_false, Prod.mk.injEq] at hi
  rw [exec_eq]
  obtain ⟨rfl, rfl⟩ | ⟨rfl, rfl⟩ | ⟨rfl, rfl⟩ := hi <;>
  · rw [handlerStep, aluHandler_of_badReg _ s h]
    rfl

/-- Settles O36: the fatal condition is taken in the state the cycle started from. -/
theorem aluFaultsOnOperandAFirst : Obligations.AluFaultsOnOperandAFirst := by
  intro s a b _ h i op hi
  rw [← apply_ite BitVec.toNat]
  exact ⟨_, exec_alu_of_badReg s h hi, faultedAccess_regOutOfRange op _ rfl rfl rfl, fun _ _ => rfl, fun _ _ => rfl, rfl⟩

end Sys2Proof.Machine
end

section
/-! PROOFS. The statements about PUSH and POP (43_stack_push_pop.md): what each does when it completes, how each faults,
that a POP undoes a PUSH, and that a well-formed instruction faults at the limits of the stack only. -/

namespace Sys2Proof.Machine

/-! ### The stack pointer and the pushed cell -/

/-- The address of a push as a number: one below `sp`, or 511 from 0 (rules R120, R121). -/
theorem pushAddr_toNat_eq_ite (s : State) :
    (pushAddr s).toNat = if s.sp.toNat = 0 then 511 else s.sp.toNat - 1 := by
  split
  · have hsp : s.sp = 0 := BitVec.eq_of_toNat_eq ‹_›
    rw [pushAddr, hsp]
    rfl
  · exact pushAddr_toNat s (Nat.one_le_iff_ne_zero.2 ‹_›)

/-- A push from 0 has no cell to write (rule R121). -/
theorem not_pushAddr_lt {s : State} (h0 : s.sp.toNat = 0) : ¬ (pushAddr s).toNat < 256 := by
  rw [pushAddr_toNat_eq_ite, if_pos h0]
  decide

/-- A pop's move of `sp` undoes a push's (rules R120, R123). -/
theorem pushAddr_add_one (s : State) : pushAddr s + 1 = s.sp := BitVec.sub_add_cancel s.sp 1

/-- A written cell reads as the byte written (rule R41). -/
theorem memByte_memPut_self {m : Memory} (hwf : Memory.wf m) (a : Nat) (v : Byte) : memByte (memPut m a v) a = v := by
  rw [memByte_memPut m a v a hwf.1, if_pos rfl]

/-! ### Instructions that complete -/

/-- A POP into a register from a stack that is not empty completes (rule R122). -/
theorem exec_pop_of_lt {a : Byte} {s : State} (ha : NamesReg a) (hsp : s.sp.toNat < 256) :
    exec (.pop a) s = .next (setPc (s.pc + 2) (setSp (s.sp + 1) (setReg a (memByte s.mem s.sp.toNat) s))) := by
  rw [exec_pop, if_pos hsp, if_pos (Nat.lt_succ_of_le ha)]

/-- A RET from a stack that is not empty completes (rule R132). -/
theorem exec_ret_of_lt {s : State} (hsp : s.sp.toNat < 256) :
    exec .ret s = .next (setPc ((memByte s.mem s.sp.toNat).setWidth 9) (returned s)) := by
  rw [exec_ret, if_pos hsp]

/-- JMP through a register completes (rule R133). -/
theorem exec_jmp_of_namesReg {a : Byte} (ha : NamesReg a) (s : State) :
    exec (.jmp a) s = .next (setPc ((regVal s a).setWidth 9) s) := by
  rw [exec_jmp, if_pos (Nat.lt_succ_of_le ha)]

/-- JEQ with a register operand completes, taken or not (rules R134, R137). -/
theorem exec_jeq_of_namesReg {a : Byte} (ha : NamesReg a) (s : State) :
    exec (.jeq a) s =
      .next (if s.equal = true then setPc ((regVal s a).setWidth 9) s else setPc (s.pc + 2) s) := by
  rw [exec_jeq, if_pos (Nat.lt_succ_of_le ha)]

/-- JNE with a register operand completes, taken or not (rules R135, R137). -/
theorem exec_jne_of_namesReg {a : Byte} (ha : NamesReg a) (s : State) :
    exec (.jne a) s =
      .next (if s.equal = true then setPc (s.pc + 2) s else setPc ((regVal s a).setWidth 9) s) := by
  rw [exec_jne, if_pos (Nat.lt_succ_of_le ha)]

/-- Settles O28: PUSH writes the cell at the new `sp`, `sp` and `pc`, and neither pointer wraps. -/
theorem pushStoresBelowTheOldTop : Obligations.PushStoresBelowTheOldTop := by
  intro s a ⟨_, hp⟩ hwf ha h1 h256
  have hsp : (pushAddr s).toNat + 1 = s.sp.toNat := by rw [pushAddr_toNat s h1, Nat.sub_add_cancel h1]
  have hpc : (s.pc + 2).toNat = s.pc.toNat + 2 := toNat_pc_add s.pc 2 hp (by decide)
  exact ⟨_, exec_push_of_lt ha (pushAddr_lt h1 h256), hsp, rfl, memByte_memPut_self hwf _ _,
    sameMemExcept_of_memPut hwf rfl, hpc, fun _ _ => rfl, rfl, rfl, rfl, rfl⟩

/-- Settles O29: POP writes its register, `sp` and `pc`, and neither pointer wraps. -/
theorem popLoadsTheTop : Obligations.PopLoadsTheTop := by
  intro s a ⟨_, hp⟩ ha h255
  have hlt : s.sp.toNat < 256 := Nat.lt_succ_of_le h255
  have hreg : regVal (setReg a (memByte s.mem s.sp.toNat) s) a = memByte s.mem s.sp.toNat :=
    regVal_setReg_self a _ s (Nat.lt_succ_of_le ha)
  have hpc : (s.pc + 2).toNat = s.pc.toNat + 2 := toNat_pc_add s.pc 2 hp (by decide)
  exact ⟨_, exec_pop_of_lt ha hlt, hreg, toNat_sp_succ s.sp hlt, hpc, sameRegsExcept_setReg a _ s, fun _ _ => rfl,
    rfl, rfl, rfl, rfl⟩

/-- Settles O51: the POP reads the cell the PUSH wrote, and moves `sp` back up from it. -/
theorem pushThenPopRoundTrip : Obligations.PushThenPopRoundTrip := by
  intro s t u r r' hwf h1 h256 hr hr' h husp hucell
  have hlt := pushAddr_lt h1 h256
  rw [exec_push_of_lt hr hlt] at h
  cases h
  replace husp : u.sp = pushAddr s := husp
  have hcell : memByte u.mem (pushAddr s).toNat = regVal s r := hucell.trans (memByte_memPut_self hwf _ _)
  have hpop := exec_pop_of_lt (s := u) hr' (husp ▸ hlt)
  rw [husp, hcell, pushAddr_add_one] at hpop
  exact ⟨_, hpop, rfl, regVal_setReg_self r' _ u (Nat.lt_succ_of_le hr'), rfl, hcell⟩

/-! ### Where they fault -/

/-- The memory fault records kind mem and the address, at the `pc` of the cycle's start `s`; the cycle may have written
registers, memory and `sp` by the time of the raise in `u` (rules R26, R41, R157). -/
theorem faultedAccess_memOutOfRange {s u : State} (op : Byte) {n : Nat} (hn : n < 512) (hpc : u.pc = s.pc)
    (hequal : u.equal = s.equal) (hout : u.out = s.out) :
    FaultedAccess op .mem n s (takeFatal s.pc (some op) (memOutOfRange n) u) :=
  ⟨rfl, rfl, rfl, rfl, rfl, rfl, (BitVec.toNat_ofNat n 9).trans (Nat.mod_eq_of_lt hn), hpc, hequal, hout⟩

/-- A PUSH that cannot complete raises after it moved `sp`, on a bad register before the full stack
(rules R121, R159, R165 rows 9 and 10). -/
theorem exec_push_of_fault {a : Byte} {s : State} (h : 7 < a.toNat ∨ s.sp.toNat = 0) :
    exec (.push a) s =
      .next (takeFatal s.pc (some 0x45) (if 7 < a.toNat then regOutOfRange a else memOutOfRange 511)
        (setSp (pushAddr s) s)) := by
  rw [exec_push]
  by_cases ha : 7 < a.toNat
  · rw [if_neg (Nat.not_lt.2 ha), if_pos ha]
  · have h0 : s.sp.toNat = 0 := h.resolve_left ha
    rw [if_pos (Nat.lt_succ_of_le (Nat.not_lt.1 ha)), if_neg (not_pushAddr_lt h0), if_neg ha,
      pushAddr_toNat_eq_ite s, if_pos h0]

/-- A POP that cannot complete raises before any write, on the empty stack before a bad register
(rules R122, R159, R165 rows 11 and 12). -/
theorem exec_pop_of_fault {a : Byte} {s : State} (h256 : s.sp.toNat ≤ 256) (h : s.sp.toNat = 256 ∨ 7 < a.toNat) :
    exec (.pop a) s =
      .next (takeFatal s.pc (some 0x46) (if s.sp.toNat = 256 then memOutOfRange 256 else regOutOfRange a) s) := by
  rw [exec_pop]
  by_cases hsp : s.sp.toNat = 256
  · rw [if_neg (by rw [hsp]; decide), if_pos hsp, hsp]
  · have ha : 7 < a.toNat := h.resolve_left hsp
    rw [if_pos (Nat.lt_of_le_of_ne h256 hsp), if_neg (Nat.not_lt.2 ha), if_neg hsp]

/-- Settles O37: the fatal condition is taken in the state that has `sp` moved and nothing else. -/
theorem faultingPushLeavesSpDecremented : Obligations.FaultingPushLeavesSpDecremented := by
  intro s a _ _ h
  refine ⟨_, exec_push_of_fault h, ?_, pushAddr_toNat_eq_ite s, fun _ _ => rfl, fun _ _ => rfl⟩
  by_cases ha : 7 < a.toNat
  · rw [if_pos ha, if_pos ha]
    exact faultedAccess_regOutOfRange 0x45 a rfl rfl rfl
  · rw [if_neg ha, if_neg ha]
    exact faultedAccess_memOutOfRange 0x45 (by decide) rfl rfl rfl

/-- Settles O38: the fatal condition is taken in the state the cycle started from. -/
theorem faultingPopChangesNothing : Obligations.FaultingPopChangesNothing := by
  intro s a _ h256 h
  refine ⟨_, exec_pop_of_fault h256 h, ?_, rfl, fun _ _ => rfl, fun _ _ => rfl⟩
  by_cases hsp : s.sp.toNat = 256
  · rw [if_pos hsp, if_pos hsp]
    exact faultedAccess_memOutOfRange 0x46 (by decide) rfl rfl rfl
  · rw [if_neg hsp, if_neg hsp]
    exact faultedAccess_regOutOfRange 0x46 a rfl rfl rfl

/-! ### The limits of the stack are the only faults of a well-formed instruction -/

/-- Every register operand of a well-formed instruction names a register (rules R13, R64). -/
theorem namesReg_of_wellFormed {i : Instr} (hi : i.wellFormed = true) : ∀ r ∈ i.registerOperands, NamesReg r :=
  fun r hr => Nat.le_of_lt_succ (of_decide_eq_true (List.all_eq_true.1 hi r hr))

/-- The instruction pushes onto the full stack or pops from the empty one (rule R124). -/
def AtStackLimit (i : Instr) (s : State) : Prop :=
  (pushes i = true ∧ s.sp.toNat = 0) ∨ (pops i = true ∧ s.sp.toNat = 256)

/-- At a limit of the stack PUSH, CALL, POP and RET fault, whatever their operand (rules R121, R122, R131, R132). -/
theorem exec_faults_of_atStackLimit {i : Instr} {s : State} (h : AtStackLimit i s) :
    ∃ t, exec i s = .next t ∧ t.runState = .faulted := by
  obtain ⟨hi, h0⟩ | ⟨hi, h256⟩ := h
  · have hfull : ¬ (pushAddr s).toNat < 256 := not_pushAddr_lt h0
    cases i with
    | push a => exact ⟨_, exec_push_of_fault (.inr h0), rfl⟩
    | call a => exact ⟨_, (exec_call a s).trans (by rw [if_neg hfull]), rfl⟩
    | _ => cases hi
  · cases i with
    | pop a => exact ⟨_, exec_pop_of_fault h256.le (.inl h256), rfl⟩
    | ret => exact ⟨_, (exec_ret s).trans (by rw [if_neg h256.not_lt]), rfl⟩
    | _ => cases hi

/-- Away from the limits of the stack an instruction whose register operands name registers halts or goes on
(rules R124, R165). -/
theorem exec_completes_of_not_atStackLimit {i : Instr} {s : State} (hs : s.runState = .running)
    (h256 : s.sp.toNat ≤ 256) (hreg : ∀ r ∈ i.registerOperands, NamesReg r) (h : ¬ AtStackLimit i s) :
    ∃ t, exec i s = .next t ∧ t.runState ≠ .faulted := by
  have hpush (hi : pushes i = true) : (pushAddr s).toNat < 256 :=
    pushAddr_lt (Nat.one_le_iff_ne_zero.2 fun h0 => h (.inl ⟨hi, h0⟩)) h256
  have hpop (hi : pops i = true) : s.sp.toNat < 256 := Nat.lt_of_le_of_ne h256 fun hsp => h (.inr ⟨hi, hsp⟩)
  have hrun : s.runState ≠ .faulted := by simp [hs]
  cases i with
  | hlt => exact ⟨_, exec_hlt s, nofun⟩
  | ldi a b => exact ⟨_, exec_ldi_of_namesReg (hreg a (.head _)) b s, hrun⟩
  | prn a => exact ⟨_, exec_prn_of_namesReg (hreg a (.head _)) s, hrun⟩
  | add a b => exact ⟨_, exec_add_of_namesReg (hreg a (.head _)) (hreg b (.tail _ (.head _))) s, hrun⟩
  | mul a b => exact ⟨_, exec_mul_of_namesReg (hreg a (.head _)) (hreg b (.tail _ (.head _))) s, hrun⟩
  | cmp a b => exact ⟨_, exec_cmp_of_namesReg (hreg a (.head _)) (hreg b (.tail _ (.head _))) s, hrun⟩
  | push a => exact ⟨_, exec_push_of_lt (hreg a (.head _)) (hpush rfl), hrun⟩
  | pop a => exact ⟨_, exec_pop_of_lt (hreg a (.head _)) (hpop rfl), hrun⟩
  | call a => exact ⟨_, exec_call_of_lt (hreg a (.head _)) (hpush rfl), hrun⟩
  | ret => exact ⟨_, exec_ret_of_lt (hpop rfl), hrun⟩
  | jmp a => exact ⟨_, exec_jmp_of_namesReg (hreg a (.head _)) s, hrun⟩
  | jeq a => exact ⟨_, exec_jeq_of_namesReg (hreg a (.head _)) s, by split <;> exact hrun⟩
  | jne a => exact ⟨_, exec_jne_of_namesReg (hreg a (.head _)) s, by split <;> exact hrun⟩

/-- Settles O43: at a limit of the stack the instruction faults whatever its operands, elsewhere it does not. -/
theorem wellFormedInstructionsFaultOnlyAtTheStackLimits :
    Obligations.WellFormedInstructionsFaultOnlyAtTheStackLimits := by
  intro i s ⟨hs, _⟩ h256 hi
  by_cases hlimit : AtStackLimit i s
  · obtain ⟨t, ht, hfault⟩ := exec_faults_of_atStackLimit hlimit
    exact ⟨t, ht, iff_of_true hfault hlimit⟩
  · obtain ⟨t, ht, hfault⟩ := exec_completes_of_not_atStackLimit hs h256 (namesReg_of_wellFormed hi) hlimit
    exact ⟨t, ht, iff_of_false hfault hlimit⟩

end Sys2Proof.Machine
end

section
/-! PROOFS. The statements about CALL, RET, JMP, JEQ and JNE (44_control_flow.md): where each leaves `pc`, how each
faults, that a RET undoes a CALL, and that JEQ and JNE are each other's opposite. -/

namespace Sys2Proof.Machine

/-! ### Jumps -/

/-- A jump target as a number is the byte in the register (rule R130). -/
theorem toNat_target (v : Byte) : (v.setWidth 9 : Ptr).toNat = v.toNat := BitVec.toNat_setWidth_of_le (by decide)

/-- What a jump leaves alone: everything but `pc` (rules R133 to R135). -/
theorem setPc_frame (p : Ptr) (s : State) :
    SameRegsExcept [] s (setPc p s) ∧ SameMemExcept [] s (setPc p s) ∧ (setPc p s).sp = s.sp ∧
      (setPc p s).equal = s.equal ∧ SameStatus s (setPc p s) :=
  ⟨fun _ _ => rfl, fun _ _ => rfl, rfl, rfl, rfl, rfl, rfl⟩

/-- JEQ is taken when `equal = 1` (rule R134). -/
theorem exec_jeq_taken {a : Byte} {s : State} (he : s.equal = true) (ha : NamesReg a) :
    exec (.jeq a) s = .next (setPc ((regVal s a).setWidth 9) s) := by
  rw [exec_jeq_of_namesReg ha, if_pos he]

/-- JEQ is not taken when `equal = 0`, whatever its operand byte (rules R134, R137). -/
theorem exec_jeq_not_taken {s : State} (he : s.equal = false) (a : Byte) :
    exec (.jeq a) s = .next (setPc (s.pc + 2) s) := by
  rw [exec_jeq, if_neg (Bool.eq_false_iff.1 he)]

/-- JNE is taken when `equal = 0` (rule R135). -/
theorem exec_jne_taken {a : Byte} {s : State} (he : s.equal = false) (ha : NamesReg a) :
    exec (.jne a) s = .next (setPc ((regVal s a).setWidth 9) s) := by
  rw [exec_jne_of_namesReg ha, if_neg (Bool.eq_false_iff.1 he)]

/-- JNE is not taken when `equal = 1`, whatever its operand byte (rules R135, R137). -/
theorem exec_jne_not_taken {s : State} (he : s.equal = true) (a : Byte) :
    exec (.jne a) s = .next (setPc (s.pc + 2) s) := by
  rw [exec_jne, if_pos he]

/-- Settles O32: JMP writes `pc` alone. -/
theorem jmpSetsPcToTheRegister : Obligations.JmpSetsPcToTheRegister := by
  intro s a _ ha
  exact ⟨_, exec_jmp_of_namesReg ha s, toNat_target _, setPc_frame _ s⟩

/-- Settles O33: taken or not, JEQ writes `pc` alone, and the advance from 253 or below does not wrap. -/
theorem jeqJumpsExactlyWhenEqual : Obligations.JeqJumpsExactlyWhenEqual := by
  intro s a ⟨_, hp⟩ ha
  by_cases he : s.equal = true
  · rw [if_pos he]
    exact ⟨_, exec_jeq_taken he (ha he), toNat_target _, setPc_frame _ s⟩
  · rw [if_neg he]
    exact ⟨_, exec_jeq_not_taken (Bool.eq_false_iff.2 he) a, toNat_pc_add s.pc 2 hp (by decide), setPc_frame _ s⟩

/-- Settles O34: taken or not, JNE writes `pc` alone, and the advance from 253 or below does not wrap. -/
theorem jneJumpsExactlyWhenNotEqual : Obligations.JneJumpsExactlyWhenNotEqual := by
  intro s a ⟨_, hp⟩ ha
  by_cases he : s.equal = false
  · rw [if_pos he]
    exact ⟨_, exec_jne_taken he (ha he), toNat_target _, setPc_frame _ s⟩
  · rw [if_neg he]
    exact ⟨_, exec_jne_not_taken (Bool.eq_true_of_not_eq_false he) a, toNat_pc_add s.pc 2 hp (by decide),
      setPc_frame _ s⟩

/-- Settles O50: only a jump that is not taken adds to `pc`. -/
theorem conditionalJumpAdvancesByTwoOnlyWhenNotTaken : Obligations.ConditionalJumpAdvancesByTwoOnlyWhenNotTaken := by
  intro s a ⟨_, hp⟩
  have hadvance : (s.pc + 2).toNat = s.pc.toNat + 2 := toNat_pc_add s.pc 2 hp (by decide)
  exact ⟨fun he => ⟨_, exec_jeq_not_taken he a, hadvance⟩, fun he => ⟨_, exec_jne_not_taken he a, hadvance⟩,
    fun ha he => ⟨_, exec_jeq_taken he ha, toNat_target _⟩, fun ha he => ⟨_, exec_jne_taken he ha, toNat_target _⟩⟩

/-- Settles O55: the flag decides which of the two jumps is the taken one. -/
theorem exactlyOneConditionalJumpIsTaken : Obligations.ExactlyOneConditionalJumpIsTaken := by
  intro s t u a ⟨_, hp⟩ ha ht hu
  have hadvance : (s.pc + 2).toNat = s.pc.toNat + 2 := toNat_pc_add s.pc 2 hp (by decide)
  by_cases he : s.equal = true
  · cases ht.symm.trans (exec_jeq_taken he ha)
    cases hu.symm.trans (exec_jne_not_taken he a)
    exact .inl ⟨toNat_target _, hadvance⟩
  · replace he : s.equal = false := Bool.eq_false_iff.2 he
    cases ht.symm.trans (exec_jeq_not_taken he a)
    cases hu.symm.trans (exec_jne_taken he ha)
    exact .inr ⟨hadvance, toNat_target _⟩

/-- The conditional jump that the flag takes raises the register fault as its first sub-step
(rule R165, rows 17 and 18). -/
theorem exec_takenJump_of_badReg {a : Byte} (s : State) (ha : 7 < a.toNat) :
    exec (if s.equal = true then .jeq a else .jne a) s =
      .next (takeFatal s.pc (some (if s.equal = true then 0x55 else 0x56)) (regOutOfRange a) s) := by
  have hbad : ¬ a.toNat < 8 := Nat.not_lt.2 ha
  by_cases he : s.equal = true
  · rw [if_pos he, if_pos he, exec_jeq, if_pos he, if_neg hbad]
  · rw [if_neg he, if_neg he, exec_jne, if_neg he, if_neg hbad]

/-- Settles O41: the fatal condition is taken in the state the cycle started from. -/
theorem takenJumpFaultsOnABadRegister : Obligations.TakenJumpFaultsOnABadRegister := by
  intro s a _ ha
  exact ⟨_, exec_takenJump_of_badReg s ha, faultedAccess_regOutOfRange _ a rfl rfl rfl, fun _ _ => rfl, fun _ _ => rfl,
    rfl⟩

/-! ### CALL -/

/-- CALL writes the scratch register alone (rules R14, R131). -/
theorem sameRegsExcept_called (s : State) : SameRegsExcept [2] s (called s) :=
  fun r hr => regVal_called_ne s r (List.ne_of_not_mem_cons hr)

/-- The scratch register of a CALL that was fetched holds `pc + 2` (rule R131). -/
theorem toNat_regVal_called_scratch {s : State} (hp : s.pc.toNat ≤ 253) :
    (regVal (called s) 2).toNat = s.pc.toNat + 2 := by
  rw [regVal_called_scratch, returnAddress_toNat s hp]

/-- The pushed cell of a CALL that was fetched holds `pc + 2` (rule R131). -/
theorem toNat_memByte_called {s : State} (hwf : Memory.wf s.mem) (hp : s.pc.toNat ≤ 253) :
    (memByte (called s).mem (pushAddr s).toNat).toNat = s.pc.toNat + 2 := by
  rw [called_mem, memByte_memPut_self hwf, returnAddress_toNat s hp]

/-- CALL reads its target after it wrote the scratch register, so `CALL R2` goes to `pc + 2` (rules R14, R131). -/
theorem toNat_regVal_called {s : State} (hp : s.pc.toNat ≤ 253) (a : Byte) :
    (regVal (called s) a).toNat = if a = 2 then s.pc.toNat + 2 else (regVal s a).toNat := by
  split
  · subst a
    exact toNat_regVal_called_scratch hp
  · rw [regVal_called_ne s a ‹_›]

/-- Settles O30: CALL jumps from the state that has the scratch register written and the return address pushed. -/
theorem callPushesTheReturnAddressAndJumps : Obligations.CallPushesTheReturnAddressAndJumps := by
  intro s a ⟨_, hp⟩ hwf ha h1 h256
  have hsp : (pushAddr s).toNat + 1 = s.sp.toNat := by rw [pushAddr_toNat s h1, Nat.sub_add_cancel h1]
  exact ⟨_, exec_call_of_lt ha (pushAddr_lt h1 h256), toNat_regVal_called_scratch hp, hsp, toNat_memByte_called hwf hp,
    sameMemExcept_of_memPut hwf rfl, (toNat_target _).trans (toNat_regVal_called hp a), sameRegsExcept_called s, rfl,
    rfl, rfl, rfl⟩

/-- A CALL onto the full stack raises at the push, after it wrote the scratch register (rule R165, row 13). -/
theorem exec_call_of_fullStack {s : State} (h0 : s.sp.toNat = 0) (a : Byte) :
    exec (.call a) s =
      .next (takeFatal s.pc (some 0x50) (memOutOfRange 511) (setSp (pushAddr s) (linked s))) := by
  rw [exec_call, if_neg (not_pushAddr_lt h0), pushAddr_toNat_eq_ite s, if_pos h0]

/-- A CALL with room on the stack raises for a register above 7 after the push (rule R165, row 14). -/
theorem exec_call_of_badReg {a : Byte} {s : State} (hsp : (pushAddr s).toNat < 256) (ha : 7 < a.toNat) :
    exec (.call a) s = .next (takeFatal s.pc (some 0x50) (regOutOfRange a) (called s)) := by
  rw [exec_call, if_pos hsp, if_neg (Nat.not_lt.2 ha)]

/-- Settles O39: the fatal condition is taken before the push from the full stack, else after it. -/
theorem faultingCallKeepsItsPartialEffects : Obligations.FaultingCallKeepsItsPartialEffects := by
  intro s a ⟨_, hp⟩ hwf h256 h
  have hspPush := pushAddr_toNat_eq_ite s
  by_cases h0 : s.sp.toNat = 0
  · rw [if_pos h0] at hspPush
    refine ⟨_, exec_call_of_fullStack h0 a, toNat_regVal_called_scratch hp, sameRegsExcept_called s, ?_⟩
    rw [if_pos h0]
    exact ⟨faultedAccess_memOutOfRange 0x50 (by decide) rfl rfl rfl, hspPush, fun _ _ => rfl⟩
  · rw [if_neg h0] at hspPush
    have hlt := pushAddr_lt (Nat.one_le_iff_ne_zero.2 h0) h256
    refine ⟨_, exec_call_of_badReg hlt (h.resolve_left h0), toNat_regVal_called_scratch hp, sameRegsExcept_called s, ?_⟩
    rw [if_neg h0]
    exact ⟨faultedAccess_regOutOfRange 0x50 a rfl rfl rfl, hspPush, toNat_memByte_called hwf hp,
      sameMemExcept_of_memPut hwf rfl⟩

/-! ### RET -/

/-- Settles O31: RET pops into the scratch register and jumps to what it popped. -/
theorem retPopsTheProgramCounter : Obligations.RetPopsTheProgramCounter := by
  intro s _ h255
  have hlt : s.sp.toNat < 256 := Nat.lt_succ_of_le h255
  exact ⟨_, exec_ret_of_lt hlt, regVal_returned_scratch s, toNat_target _, toNat_sp_succ s.sp hlt,
    fun r hr => regVal_returned_ne s r (List.ne_of_not_mem_cons hr), fun _ _ => rfl, rfl, rfl, rfl, rfl⟩

/-- A RET from the empty stack raises before any write (rule R165, row 15). -/
theorem exec_ret_of_emptyStack {s : State} (h256 : s.sp.toNat = 256) :
    exec .ret s = .next (takeFatal s.pc (some 0x11) (memOutOfRange 256) s) := by
  rw [exec_ret, if_neg h256.not_lt, h256]

/-- Settles O40: the fatal condition is taken in the state the cycle started from. -/
theorem retOnTheEmptyStackFaults : Obligations.RetOnTheEmptyStackFaults := by
  intro s _ h256
  exact ⟨_, exec_ret_of_emptyStack h256, faultedAccess_memOutOfRange 0x11 (by decide) rfl rfl rfl, fun _ _ => rfl,
    fun _ _ => rfl, rfl⟩

/-- Settles O52: the RET reads the cell the CALL wrote, and moves `sp` back up from it. -/
theorem callThenRetResumesAfterTheCall : Obligations.CallThenRetResumesAfterTheCall := by
  intro s t u a ⟨_, hp⟩ hwf h1 h256 ha h husp hucell
  have hlt := pushAddr_lt h1 h256
  cases h.symm.trans (exec_call_of_lt ha hlt)
  replace husp : u.sp = pushAddr s := husp
  have hcell : (memByte u.mem u.sp.toNat).toNat = s.pc.toNat + 2 := by
    rw [husp]
    exact (congrArg BitVec.toNat hucell).trans (toNat_memByte_called hwf hp)
  have hsp : u.sp + 1 = s.sp := by rw [husp, pushAddr_add_one]
  have hscratch : (regVal (returned u) 2).toNat = s.pc.toNat + 2 := by rw [regVal_returned_scratch, hcell]
  exact ⟨_, exec_ret_of_lt (husp ▸ hlt), (toNat_target _).trans hcell, hsp, hscratch, rfl⟩

end Sys2Proof.Machine
end

section
/-! PROOFS. The statements about the fatal conditions (60_exceptions.md): the cause codes, what taking a condition does,
the unknown opcode, and that the table of fault sites is complete. -/

namespace Sys2Proof.Machine

/-! ### Taking a fatal condition -/

/-- Settles O20: the codes of the four causes, by the definition of `causeCode`. -/
theorem causeCodesAreNumbered : Obligations.CauseCodesAreNumbered := ⟨rfl, rfl, rfl, rfl⟩

/-- Settles O21: the entry writes the run state and the record alone. -/
theorem fatalConditionEntry : Obligations.FatalConditionEntry := by
  intro p op c s
  refine ⟨rfl, rfl, rfl, rfl, ?_, ?_, fun _ _ => rfl, fun _ _ => rfl, rfl, rfl, rfl, rfl⟩
  · rintro b rfl
    rfl
  · rintro k v rfl
    exact ⟨rfl, rfl⟩

/-! ### The unknown opcode -/

/-- A fetch inside memory of an opcode byte that is no key raises UnknownOpcode with that byte (rules R84, R151). -/
theorem fetchDecode_of_lookupHandler_eq_none {s : State} (hp : s.pc.toNat ≤ 253)
    (h : lookupHandler (memByte s.mem s.pc.toNat) = none) :
    fetchDecode s = .raise (some (memByte s.mem s.pc.toNat)) (.unknownOpcode (memByte s.mem s.pc.toNat)) := by
  rw [fetchDecode_eq s hp, decodeWindow_eq_unknownOpcode_iff.2 h, fetchedOf_unknownOpcode]

/-- Settles O8: the step takes the fatal condition of the lookup in the state the cycle started from; the FAULTED
machine it leaves has the exit status of O19 and stops as O9 says. -/
theorem unknownOpcodeFaults : Obligations.UnknownOpcodeFaults := by
  intro s ⟨hs, hp⟩ hop
  have hlookup : lookupHandler (memByte s.mem s.pc.toNat) = none :=
    decodeWindow_eq_unknownOpcode_iff.1 ((exactlyTheOther243OpcodesAreUnknown.1 _ 0 0).2 hop)
  exact ⟨_, step_of_raise s _ _ hs (fetchDecode_of_lookupHandler_eq_none hp hlookup), rfl, rfl, rfl, rfl, rfl, rfl,
    BitVec.toNat_setWidth_of_le (by decide), fun _ _ => rfl, fun _ _ => rfl, rfl, rfl, rfl, rfl,
    (exitStatusTellsHowTheRunEnded _).2.2.2 rfl, (stoppedMachineHasNoSuccessor _).2 rfl⟩

/-! ### The sites of rule R165 -/

/-- An operand byte is a fault site exactly when it names no register, with the condition of that access (rule R13). -/
theorem regFault_eq_some_iff {a : Byte} {c : Condition} :
    regFault a = some c ↔ 7 < a.toNat ∧ regOutOfRange a = c := by
  rw [regFault, Option.ite_none_right_eq_some, regOutOfRange, Option.some_inj]

/-- An operand byte that names a register is no fault site (rule R13). -/
theorem regFault_eq_none_iff {a : Byte} : regFault a = none ↔ NamesReg a := by
  simp [regFault]

/-- The site of ADD, MUL and CMP is operand A if it names no register, else operand B (rules R159, R165 rows 7, 8). -/
theorem regFault_or_regFault_eq_some {a b : Byte} {c : Condition} (h : (regFault a).or (regFault b) = some c) :
    (7 < a.toNat ∨ 7 < b.toNat) ∧ regOutOfRange (if 7 < a.toNat then a else b) = c := by
  obtain hsite | ⟨ha, hsite⟩ := Option.or_eq_some_iff.1 h
  · obtain ⟨ha, rfl⟩ := regFault_eq_some_iff.1 hsite
    exact ⟨.inl ha, by rw [if_pos ha]⟩
  · obtain ⟨hb, rfl⟩ := regFault_eq_some_iff.1 hsite
    exact ⟨.inr hb, by rw [if_neg (Nat.not_lt.2 (regFault_eq_none_iff.1 ha))]⟩

/-- The site of PUSH is its operand if it names no register, else the full stack (rules R159, R165 rows 9, 10). -/
theorem faultSite_push_eq_some {a : Byte} {s : State} {c : Condition} (h : faultSite (.push a) s = some c) :
    (7 < a.toNat ∨ s.sp.toNat = 0) ∧ (if 7 < a.toNat then regOutOfRange a else memOutOfRange 511) = c := by
  obtain hsite | ⟨ha, hsite⟩ := Option.or_eq_some_iff.1 h
  · obtain ⟨ha, rfl⟩ := regFault_eq_some_iff.1 hsite
    exact ⟨.inl ha, if_pos ha⟩
  · obtain ⟨hsp, rfl⟩ := Option.ite_some_none_eq_some.1 hsite
    exact ⟨.inr (BitVec.toNat_inj.2 hsp), if_neg (Nat.not_lt.2 (regFault_eq_none_iff.1 ha))⟩

/-- The site of POP is the empty stack, else its operand if it names no register (rules R159, R165 rows 11, 12). -/
theorem faultSite_pop_eq_some {a : Byte} {s : State} {c : Condition} (h : faultSite (.pop a) s = some c) :
    (s.sp.toNat = 256 ∨ 7 < a.toNat) ∧ (if s.sp.toNat = 256 then memOutOfRange 256 else regOutOfRange a) = c := by
  have hsp : s.sp.toNat = 256 ↔ s.sp = 256 := BitVec.toNat_inj (y := 256)
  rw [faultSite] at h
  split at h
  · cases h
    exact ⟨.inl (hsp.2 ‹_›), if_pos (hsp.2 ‹_›)⟩
  · obtain ⟨ha, rfl⟩ := regFault_eq_some_iff.1 h
    exact ⟨.inr ha, if_neg (mt hsp.1 ‹_›)⟩

/-! ### What the sites leave changed -/

/-- A stack pointer that is not 0 has a cell below it. -/
theorem one_le_toNat_sp {s : State} (h0 : s.sp ≠ 0) : 1 ≤ s.sp.toNat :=
  Nat.one_le_iff_ne_zero.2 (mt (BitVec.toNat_inj (y := 0)).1 h0)

/-- The address of a push by the column's own case split (rules R120, R121). -/
theorem pushAddr_eq_ite (s : State) : pushAddr s = if s.sp = 0 then 511 else s.sp - 1 := by
  unfold pushAddr
  split
  · rw [‹s.sp = 0›]
    rfl
  · rfl

/-- The column's link byte is the return address: both are `pc + 2` cut to 8 bits (rule R131). -/
theorem ofNat_pc_add_two (s : State) : BitVec.ofNat 8 (s.pc.toNat + 2) = returnAddress s := by
  unfold returnAddress
  bv_omega

/-- The column's write of the scratch register is the CALL's: register 2 is in bounds (rules R14, R131). -/
theorem regs_set_scratch (s : State) : s.regs.set 2 (returnAddress s) = (linked s).regs :=
  Vector.ext fun i hi => by simp [linked, Vector.getElem_set, Vector.getElem_setIfInBounds]

/-- A faulting PUSH has moved `sp` (rule R165, rows 9 and 10). -/
theorem alreadyChanged_push (a : Byte) (s : State) : alreadyChanged (.push a) s = setSp (pushAddr s) s := by
  rw [alreadyChanged, ← pushAddr_eq_ite]
  rfl

/-- A CALL that faults on the full stack has written the scratch register and moved `sp` (rule R165, row 13). -/
theorem alreadyChanged_call_of_fullStack {s : State} (h0 : s.sp = 0) (a : Byte) :
    alreadyChanged (.call a) s = setSp (pushAddr s) (linked s) := by
  simp only [alreadyChanged, ofNat_pc_add_two, regs_set_scratch, pushAddr_eq_ite, if_pos h0]
  rfl

/-- A CALL that faults on its register has also pushed the return address (rule R165, row 14). -/
theorem alreadyChanged_call_of_room {s : State} (h0 : s.sp ≠ 0) (a : Byte) :
    alreadyChanged (.call a) s = called s := by
  have haddr : (pushAddr s).toNat = s.sp.toNat - 1 := pushAddr_toNat s (one_le_toNat_sp h0)
  simp only [alreadyChanged, ofNat_pc_add_two, regs_set_scratch, if_neg h0, called, haddr]
  rfl

/-! ### The table is complete -/

/-- At a site of the table the cycle takes its condition, in the state the column gives (rules R158, R159, R165). -/
theorem exec_of_faultSite_eq_some {i : Instr} {s : State} {c : Condition} (h256 : s.sp.toNat ≤ 256)
    (h : faultSite i s = some c) :
    exec i s = .next (takeFatal s.pc (some (opcodeByte (handlerOf i))) c (alreadyChanged i s)) := by
  cases i with
  | hlt => cases h
  | ldi a b =>
    obtain ⟨ha, rfl⟩ := regFault_eq_some_iff.1 h
    exact exec_ldi_prn_jmp_of_badReg (b := b) s ha (by simp [handlerOf, opcodeByte])
  | prn a | jmp a =>
    obtain ⟨ha, rfl⟩ := regFault_eq_some_iff.1 h
    exact exec_ldi_prn_jmp_of_badReg (b := 0) s ha (by simp [handlerOf, opcodeByte])
  | add a b | mul a b | cmp a b =>
    obtain ⟨hbad, rfl⟩ := regFault_or_regFault_eq_some h
    exact exec_alu_of_badReg s hbad (by simp [handlerOf, opcodeByte])
  | push a =>
    obtain ⟨hbad, rfl⟩ := faultSite_push_eq_some h
    rw [alreadyChanged_push]
    exact exec_push_of_fault hbad
  | pop a =>
    obtain ⟨hbad, rfl⟩ := faultSite_pop_eq_some h
    exact exec_pop_of_fault h256 hbad
  | call a =>
    rw [faultSite] at h
    split at h
    · cases h
      rw [alreadyChanged_call_of_fullStack ‹_›]
      exact exec_call_of_fullStack (congrArg BitVec.toNat ‹s.sp = 0›) a
    · obtain ⟨ha, rfl⟩ := regFault_eq_some_iff.1 h
      rw [alreadyChanged_call_of_room ‹_›]
      exact exec_call_of_badReg (pushAddr_lt (one_le_toNat_sp ‹_›) h256) ha
  | ret =>
    obtain ⟨hsp, rfl⟩ := Option.ite_some_none_eq_some.1 h
    exact exec_ret_of_emptyStack (congrArg BitVec.toNat hsp)
  | jeq a =>
    obtain ⟨he, hsite⟩ := Option.ite_none_right_eq_some.1 h
    obtain ⟨ha, rfl⟩ := regFault_eq_some_iff.1 hsite
    have hexec := exec_takenJump_of_badReg s ha
    rwa [if_pos he, if_pos he] at hexec
  | jne a =>
    obtain ⟨he, hsite⟩ := Option.ite_none_left_eq_some.1 h
    obtain ⟨ha, rfl⟩ := regFault_eq_some_iff.1 hsite
    have hexec := exec_takenJump_of_badReg s ha
    rwa [if_neg he, if_neg he] at hexec

/-- The table has a site for each limit of the stack, whatever the operand (rules R124, R165 rows 10, 11, 13, 15). -/
theorem not_atStackLimit_of_faultSite_eq_none {i : Instr} {s : State} (h : faultSite i s = none) :
    ¬ AtStackLimit i s := by
  rintro (⟨hi, hsp⟩ | ⟨hi, hsp⟩)
  · replace hsp : s.sp = 0 := BitVec.eq_of_toNat_eq hsp
    cases i with
    | push a | call a => simp [faultSite, hsp] at h
    | _ => cases hi
  · replace hsp : s.sp = 256 := BitVec.eq_of_toNat_eq hsp
    cases i with
    | pop a | ret => simp [faultSite, hsp] at h
    | _ => cases hi

/-- A register operand above 7 goes without a site only in a jump that is not taken (rules R137, R165). -/
theorem namesReg_or_jump_not_taken_of_faultSite_eq_none {i : Instr} {s : State} (h : faultSite i s = none) :
    (∀ r ∈ i.registerOperands, NamesReg r) ∨
      (∃ a, i = .jeq a ∧ s.equal = false) ∨ ∃ a, i = .jne a ∧ s.equal = true := by
  have hone {a : Byte} (ha : regFault a = none) : ∀ r ∈ [a], NamesReg r :=
    List.forall_mem_singleton.2 (regFault_eq_none_iff.1 ha)
  cases i with
  | hlt | ret => exact .inl nofun
  | ldi a _ | prn a | jmp a => exact .inl (hone h)
  | add a b | mul a b | cmp a b =>
    obtain ⟨ha, hb⟩ := Option.or_eq_none_iff.1 h
    exact .inl (List.forall_mem_cons.2 ⟨regFault_eq_none_iff.1 ha, hone hb⟩)
  | push a => exact .inl (hone (Option.or_eq_none_iff.1 h).1)
  | pop a | call a =>
    obtain ⟨-, h⟩ | ⟨-, h⟩ := ite_eq_iff.1 h
    · cases h
    · exact .inl (hone h)
  | jeq a =>
    by_cases he : s.equal = true
    · rw [faultSite, if_pos he] at h
      exact .inl (hone h)
    · exact .inr (.inl ⟨a, rfl, Bool.eq_false_iff.2 he⟩)
  | jne a =>
    by_cases he : s.equal = true
    · exact .inr (.inr ⟨a, rfl, he⟩)
    · rw [faultSite, if_neg he] at h
      exact .inl (hone h)

/-- Where the table has no site the instruction halts or goes on (rule R165). -/
theorem exec_completes_of_faultSite_eq_none {i : Instr} {s : State} (hs : s.runState = .running)
    (h256 : s.sp.toNat ≤ 256) (h : faultSite i s = none) : ∃ t, exec i s = .next t ∧ t.runState ≠ .faulted := by
  have hrun : s.runState ≠ .faulted := by simp [hs]
  obtain hreg | ⟨a, rfl, he⟩ | ⟨a, rfl, he⟩ := namesReg_or_jump_not_taken_of_faultSite_eq_none h
  · exact exec_completes_of_not_atStackLimit hs h256 hreg (not_atStackLimit_of_faultSite_eq_none h)
  · exact ⟨_, exec_jeq_not_taken he a, hrun⟩
  · exact ⟨_, exec_jne_not_taken he a, hrun⟩

/-- Settles O42: the table has a site, and the cycle faults there as it says, or it has none, and the cycle does not
fault. -/
theorem instructionsFaultExactlyAtTheListedSites : Obligations.InstructionsFaultExactlyAtTheListedSites := by
  intro i s ⟨hs, _⟩ h256
  cases hsite : faultSite i s with
  | some c => exact exec_of_faultSite_eq_some h256 hsite
  | none => exact exec_completes_of_faultSite_eq_none hs h256 hsite

end Sys2Proof.Machine
end

section
/-! PROOFS. The statements about reset and the boot state (70_reset_and_hazards.md): the items after reset, and what
the load of a program image leaves in memory. -/

namespace Sys2Proof.Machine

/-! ### The load of an image -/

/-- The load write to an address inside memory, as data (rule R32). -/
theorem loadByte_mem_of_lt {a : Nat} (ha : a < 256) (b : Byte) (s : State) :
    (loadByte (BitVec.ofNat 8 a, b) s).mem = memPut s.mem a b := by
  rw [loadByte, setMem_mem, BitVec.toNat_ofNat, Nat.mod_eq_of_lt ha]

/-- An image with room at `a` starts with its first byte's write; the rest follow from the next address (rule R46). -/
theorem load_imageAt_cons {a : Nat} (ha : a < 256) (b : Byte) (bs : List Byte) (s : State) :
    load (imageAt a (b :: bs)) s = load (imageAt (a + 1) bs) (loadByte (BitVec.ofNat 8 a, b) s) := by
  rw [imageAt, if_pos ha]
  rfl

/-- After the load the cells from `a` on read as the image as far as it reaches, all others as before (rule R54). -/
theorem memByte_load_imageAt (bs : List Byte) {a : Nat} {s : State} (hwf : Memory.wf s.mem)
    (hlen : a + bs.length ≤ 256) (n : Nat) :
    memByte (load (imageAt a bs) s).mem n =
      if n < a then memByte s.mem n else bs.getD (n - a) (memByte s.mem n) := by
  induction bs generalizing a s with
  | nil => exact (ite_self _).symm
  | cons b bs ih =>
    rw [List.length_cons] at hlen
    have ha : a < 256 := by omega
    have hmem := loadByte_mem_of_lt ha b s
    have hwf' : Memory.wf (loadByte (BitVec.ofNat 8 a, b) s).mem := hmem ▸ memPut_wf s.mem a b ha hwf
    rw [load_imageAt_cons ha, ih hwf' (by omega), hmem, memByte_memPut _ _ _ _ hwf.1]
    obtain hn | rfl | hn := Nat.lt_trichotomy n a
    · rw [if_pos (by omega), if_neg hn.ne, if_pos hn]
    · simp
    · rw [if_neg (by omega), if_neg hn.ne', if_neg (by omega), show n - a = n - (a + 1) + 1 by omega,
        List.getD_cons_succ]

/-- Settles O18: the image starts at cell 0 of the reset memory, and by O17 the load writes touch nothing else. -/
theorem bootShowsTheImageOverZeros : Obligations.BootShowsTheImageOverZeros := by
  intro image hlen
  constructor
  · intro n
    exact memByte_load_imageAt image reset_mem_wf (by omega) n
  · exact (loadWritesAreAppliedInOrder (imageAt 0 image) State.reset reset_mem_wf).2

/-! ### The state after reset -/

/-- No cell is listed at reset (rule R54). -/
theorem memByte_reset (n : Nat) : memByte State.reset.mem n = 0 := rfl

/-- Every register is 0 at reset (rule R31). -/
theorem regVal_reset {r : Byte} (hr : r.toNat < 8) : regVal State.reset r = 0 := by
  rw [regVal, State.reset, Vector.getElem?_replicate, if_pos hr]
  rfl

/-- Settles O16: memory and registers read as 0, and every other item is a field of `State.reset`. -/
theorem resetState : Obligations.ResetState :=
  ⟨fun n _ => memByte_reset n, fun _ => regVal_reset, rfl, rfl, rfl, rfl, rfl, rfl, rfl, rfl, rfl, rfl⟩

end Sys2Proof.Machine
end
